-- ==== Sys2Proof/Word.lean ====
section
/-! DEFINITION. The word types of the tamer core (00_scope.md R9) and the record of one bus transaction (10_state.md R35). -/

namespace Sys2Proof

/-- A byte: 8 bits (R8); the spec's `u8` where it is register contents. -/
abbrev Byte := BitVec 8

/-- The spec's `u16`: the trim value and every DAC count (R9, R23). -/
abbrev U16 := BitVec 16

/-- The spec's `i32`: an error count, two's complement in 32 bits (R9, R24); its integer is `BitVec.toInt`. -/
abbrev I32 := BitVec 32

/-- The spec's `f32`: an IEEE 754 binary32 bit pattern (R9). -/
abbrev F32 := BitVec 32

/-- A 32-bit operation word (30_encoding.md R89); it is a number and has no byte order. -/
abbrev OpWord := BitVec 32

/-- The 8 exponent bits of a binary32 pattern, 30 down to 23. -/
def F32.expField (x : F32) : Nat := (x.extractLsb' 23 8).toNat

/-- The 23 fraction bits of a binary32 pattern, 22 down to 0. -/
def F32.fracField (x : F32) : Nat := (x.extractLsb' 0 23).toNat

/-- The sign bit of a binary32 pattern: true when negative. -/
def F32.sign (x : F32) : Bool := x.getLsbD 31

/-- Neither an infinity nor a NaN: the exponent field is not all ones (the constraint of R7 on `SLOPE_POWERUP`). -/
def F32.isFinite (x : F32) : Bool := x.expField != 255

/-- One byte-wide bus transaction, `(R, idx, byte)` or `(W, idx, byte)`, as `s.trace` records it (R35, R61). -/
inductive Txn where
  /-- `(R, idx, byte)`: register `idx` was read and the environment answered `byte`. -/
  | read (idx : Nat) (byte : Byte)
  /-- `(W, idx, byte)`: `byte` was written to register `idx`. -/
  | write (idx : Nat) (byte : Byte)
  deriving DecidableEq, Repr

/-- The register index a transaction is about. -/
def Txn.idx : Txn → Nat
  | .read i _ => i
  | .write i _ => i

end Sys2Proof
end

