-- ==== Sys2Proof/Config.lean ====
section
/-! DEFINITION. The implementation parameters of 00_scope.md R7 as plain data, their constraints, their defaults, and the
model's free values (opaque constants: nothing in Lean can evaluate one). -/

namespace Sys2Proof

/-- The parameters of R7 that are OPEN or have a constraint, each under the spec's name.
State holds one such record, so every statement quantifies over every configuration (log entry 1). -/
structure Config where
  /-- `BASE`: physical base address of the register window. -/
  base : Nat
  /-- `IDX_CTRL` -/
  idxCtrl : Nat
  /-- `IDX_STAT` -/
  idxStat : Nat
  /-- `IDX_STATE` -/
  idxState : Nat
  /-- `IDX_DAC_LO` -/
  idxDacLo : Nat
  /-- `IDX_DAC_HI` -/
  idxDacHi : Nat
  /-- `IDX_ERR_1S`: first of four consecutive indices. -/
  idxErr1s : Nat
  /-- `IDX_ERR_10S`: first of four consecutive indices. -/
  idxErr10s : Nat
  /-- `IDX_ERR_100S`: first of four consecutive indices. -/
  idxErr100s : Nat
  /-- `DAC_MAX` -/
  dacMax : Nat
  /-- `TRIMDAC_MIN` -/
  trimdacMin : Nat
  /-- `TRIMDAC_MAX` -/
  trimdacMax : Nat
  /-- `DAC_POWERUP_DEFAULT` -/
  dacPowerupDefault : Nat
  /-- `DAC_DEGENERATE_DEFAULT` -/
  dacDegenerateDefault : Nat
  /-- `SLOPE_POWERUP` -/
  slopePowerup : F32
  /-- `STAT_BIT_1S` -/
  statBit1s : Nat
  /-- `STAT_BIT_10S` -/
  statBit10s : Nat
  /-- `STAT_BIT_100S` -/
  statBit100s : Nat
  /-- `STATE_VAL_COARSE_DONE` -/
  stateValCoarseDone : Byte
  /-- `RUN_WHILE_DISABLED` -/
  runWhileDisabled : Bool
  deriving DecidableEq, Repr

namespace Config

/-- `ADDR_WIDTH`, fixed by R7. -/
def addrWidth : Nat := 32

/-- `STATE_VAL_INIT`, fixed by R7: the byte tamer init writes to the STATE register. -/
def stateValInit : Byte := 0x00

/-- The 17 register indices of R7, which must be pairwise distinct. -/
def indices (c : Config) : List Nat :=
  [c.idxCtrl, c.idxStat, c.idxState, c.idxDacLo, c.idxDacHi,
   c.idxErr1s, c.idxErr1s + 1, c.idxErr1s + 2, c.idxErr1s + 3,
   c.idxErr10s, c.idxErr10s + 1, c.idxErr10s + 2, c.idxErr10s + 3,
   c.idxErr100s, c.idxErr100s + 1, c.idxErr100s + 2, c.idxErr100s + 3]

/-- R7 and R65: `BASE` is a multiple of 4 and the whole window of 256 slots lies inside the address space. -/
def baseOk (c : Config) : Bool := c.base % 4 == 0 && decide (c.base + 4 * 255 + 3 < 2 ^ addrWidth)

/-- R7: every one of the 17 indices lies in 0..255 (so a counter starts at 0..252), and they are pairwise distinct. -/
def indicesOk (c : Config) : Bool := c.indices.all (fun i => decide (i ≤ 255)) && decide c.indices.Nodup

/-- R7: the DAC values lie in their ranges. -/
def dacOk (c : Config) : Bool :=
  decide (1 ≤ c.dacMax) && decide (c.dacMax ≤ 65535) && decide (c.trimdacMin ≤ c.dacMax) &&
  decide (c.trimdacMax ≤ c.dacMax) && decide (c.dacPowerupDefault ≤ c.dacMax) &&
  decide (c.dacDegenerateDefault ≤ c.dacMax)

/-- R7: the three status bits lie in 0..7 and are distinct. -/
def statBitsOk (c : Config) : Bool :=
  decide (c.statBit1s ≤ 7) && decide (c.statBit10s ≤ 7) && decide (c.statBit100s ≤ 7) &&
  decide (c.statBit1s ≠ c.statBit10s) && decide (c.statBit1s ≠ c.statBit100s) &&
  decide (c.statBit10s ≠ c.statBit100s)

/-- Every constraint of R7. A configuration that violates one is refused by every operation (R224 `BadConfiguration`). -/
def valid (c : Config) : Bool :=
  c.baseOk && c.indicesOk && c.dacOk && c.statBitsOk && c.slopePowerup.isFinite

/-- The defaults of R7, used by 95_test_vectors.md. R7 gives `BASE` no default: 0 is a DESIGN CHOICE (log entry 2). -/
def default : Config where
  base := 0
  idxCtrl := 0
  idxStat := 1
  idxState := 2
  idxDacLo := 3
  idxDacHi := 4
  idxErr1s := 5
  idxErr10s := 9
  idxErr100s := 13
  dacMax := 65535
  trimdacMin := 0
  trimdacMax := 65535
  dacPowerupDefault := 32768
  dacDegenerateDefault := 32000
  slopePowerup := 0x00000000
  statBit1s := 0
  statBit10s := 1
  statBit100s := 2
  stateValCoarseDone := 0x01
  runWhileDisabled := false

/-- R60: the physical address of register `idx`. -/
def regAddr (c : Config) (idx : Nat) : Nat := c.base + 4 * idx

/-- FREE VALUE (R75, U10; log entry 3): the byte the environment answers to a read.
`draw` counts the reads answered before it; the address and the history of transactions stand beside it so that no law ties
the answers of two different histories together. -/
opaque envByte (draw addr : Nat) (history : List Txn) : Byte

/-- FREE VALUE (R42, R204; log entry 4): the enable level the supervisory loop samples, one per sample. -/
opaque enableSample (sample : Nat) (history : List Txn) : Bool

/-- FREE VALUE (R11 states no result; log entry 10): a binary32 product with an operand that is not finite. -/
opaque f32MulOpen (a b : F32) : F32

/-- FREE VALUE (R11 states no result; log entry 10): a binary32 quotient whose divisor is zero or which has an operand that
is not finite. -/
opaque f32DivOpen (a b : F32) : F32

/-- FREE VALUE (R11 states no result; log entry 10): `round` of a binary32 value that is not finite. -/
opaque roundOpen (x : F32) : Int

end Config

end Sys2Proof
end

