-- ==== Sys2Proof/Syntax.lean ====
section
/-! DEFINITION. The operations of the block: one constructor per row of spec/opcode_table.json (30_encoding.md R91), and the
two enumerations of the source (10_state.md R30, R31). -/

namespace Sys2Proof

/-- TuneState (R31): the calibration state machine's state, the block's only sequencing register. -/
inductive TuneState where
  | coarseTuneMin
  | coarseTuneMax
  | coarseTuneDone
  | fineTune
  deriving DecidableEq, Repr

/-- TuneMode (R30): which reference the measurement block measures against. -/
inductive TuneMode where
  | disabled
  | onePPS
  | tenMHz
  deriving DecidableEq, Repr

/-- An operation with its operands, as R93 assembles them. Operands have the width of their field, so every term of this
type has a word. The four `fsm…` rows are the four rows of the one operation FSM_STEP, whose arm `s.tstate` selects when it
is executed (R92, R160; log entry 6). -/
inductive Instr where
  /-- REG_WRITE `idx, data` (R101) -/
  | regWrite (idx : BitVec 8) (data : BitVec 8)
  /-- REG_READ `idx` (R100) -/
  | regRead (idx : BitVec 8)
  /-- RESET_COUNTERS `b` (R103) -/
  | resetCounters (b : Bool)
  /-- ENABLE_ISR `b` (R104) -/
  | enableIsr (b : Bool)
  /-- CLEAR_ISR (R105) -/
  | clearIsr
  /-- SET_TUNE_MODE `m` (R106); code 3 is a valid operand (R94) -/
  | setTuneMode (m : BitVec 2)
  /-- READ_COUNT `idx` (R107) -/
  | readCount (idx : BitVec 8)
  /-- DAC_WRITE `v` (R130) -/
  | dacWrite (v : BitVec 16)
  /-- CAPTURE (R141) -/
  | capture
  /-- POLL (R140) -/
  | poll
  /-- FSM_STEP, row COARSE_MIN (R160, R161) -/
  | fsmCoarseMin
  /-- FSM_STEP, row COARSE_MAX (R160, R162) -/
  | fsmCoarseMax
  /-- FSM_STEP, row COARSE_DONE (R160, R163) -/
  | fsmCoarseDone
  /-- FSM_STEP, row FINE_TUNE (R160, R166) -/
  | fsmFineTune
  /-- CAL_COMPUTE (R164, R165) -/
  | calCompute
  /-- FINE_CORRECT (R167, R168) -/
  | fineCorrect
  /-- REARM (R169) -/
  | rearm
  /-- TAMER_INIT (R201) -/
  | tamerInit
  /-- TAMER_DISABLE (R202) -/
  | tamerDisable
  /-- SUPERVISE `en` (R200) -/
  | supervise (en : Bool)
  /-- TICK `en` (R203) -/
  | tick (en : Bool)
  /-- POWER_ON_RESET (R250) -/
  | powerOnReset
  deriving DecidableEq, Repr

/-- The row of FSM_STEP whose arm runs in a TuneState (R160, R92). -/
def Instr.fsmRow : TuneState → Instr
  | .coarseTuneMin => .fsmCoarseMin
  | .coarseTuneMax => .fsmCoarseMax
  | .coarseTuneDone => .fsmCoarseDone
  | .fineTune => .fsmFineTune

/-- Whether a term names the operation its word spells in TuneState `ts`: every term does, but an FSM_STEP row only in the
state that selects its arm (R92). -/
def Instr.selectedIn (ts : TuneState) : Instr → Bool
  | .fsmCoarseMin => ts = .coarseTuneMin
  | .fsmCoarseMax => ts = .coarseTuneMax
  | .fsmCoarseDone => ts = .coarseTuneDone
  | .fsmFineTune => ts = .fineTune
  | .regWrite _ _ | .regRead _ | .resetCounters _ | .enableIsr _ | .clearIsr | .setTuneMode _ | .readCount _
  | .dacWrite _ | .capture | .poll | .calCompute | .fineCorrect | .rearm | .tamerInit | .tamerDisable
  | .supervise _ | .tick _ | .powerOnReset => true

end Sys2Proof
end

