-- ==== Sys2Proof/Decode.lean ====
section
/-! DEFINITION. Decoding of operation words (30_encoding.md R89 to R95), total on every word and refusing by name, and the
encoder written from the same tables. -/

namespace Sys2Proof

/-- Why a word spells no operation (R92). -/
inductive DecodeError where
  /-- The opcode is not in the map of R91, or a bit its format marks `0` is 1. -/
  | undefinedOperation (w : OpWord)
  deriving DecidableEq, Repr

/-- R89: the opcode, bits 7:0. -/
def opcodeOf (w : OpWord) : BitVec 8 := w.extractLsb' 0 8

/-- R93: `b = w[8]`. -/
def fieldB (w : OpWord) : Bool := w.getLsbD 8

/-- R93: `m = w[9:8]`. -/
def fieldM (w : OpWord) : BitVec 2 := w.extractLsb' 8 2

/-- R93: `idx = w[15:8]`. -/
def fieldIdx (w : OpWord) : BitVec 8 := w.extractLsb' 8 8

/-- R93: `data = w[23:16]`. -/
def fieldData (w : OpWord) : BitVec 8 := w.extractLsb' 16 8

/-- R93: `v = w[31:16]`. -/
def fieldV (w : OpWord) : BitVec 16 := w.extractLsb' 16 16

/-- R90: the six formats. -/
inductive Format where
  | f0
  | fb
  | fm
  | fi
  | fiw
  | fv
  deriving DecidableEq, Repr

/-- R90: the bits a format marks `0`; in each format they are one field: its lowest bit and its number of bits. -/
def Format.zeroField : Format → Nat × Nat
  | .f0 => (8, 24)
  | .fb => (9, 23)
  | .fm => (10, 22)
  | .fi => (16, 16)
  | .fiw => (24, 8)
  | .fv => (8, 8)

/-- R92: the bits of a word that format `f` marks `0`, as a number. -/
def Format.zeroBits (f : Format) (w : OpWord) : Nat := (w.extractLsb' f.zeroField.1 f.zeroField.2).toNat

/-- R92: an operation of format `f`, refused when a must-be-zero bit is set. -/
def ofFormat (f : Format) (w : OpWord) (i : Instr) : Except DecodeError Instr :=
  if f.zeroBits w = 0 then .ok i else .error (.undefinedOperation w)

/-- R92: decoding. FSM_STEP's four rows share one word; `ts` is `s.tstate` when the word is executed, which selects the row. -/
def decode (ts : TuneState) (w : OpWord) : Except DecodeError Instr :=
  match (opcodeOf w).toNat with
  | 0x01 => ofFormat .fiw w (.regWrite (fieldIdx w) (fieldData w))
  | 0x02 => ofFormat .fi w (.regRead (fieldIdx w))
  | 0x03 => ofFormat .fb w (.resetCounters (fieldB w))
  | 0x04 => ofFormat .fb w (.enableIsr (fieldB w))
  | 0x05 => ofFormat .f0 w .clearIsr
  | 0x06 => ofFormat .fm w (.setTuneMode (fieldM w))
  | 0x07 => ofFormat .fi w (.readCount (fieldIdx w))
  | 0x08 => ofFormat .fv w (.dacWrite (fieldV w))
  | 0x09 => ofFormat .f0 w .capture
  | 0x0A => ofFormat .f0 w .poll
  | 0x0B => ofFormat .f0 w (.fsmRow ts)
  | 0x0C => ofFormat .f0 w .calCompute
  | 0x0D => ofFormat .f0 w .fineCorrect
  | 0x0E => ofFormat .f0 w .rearm
  | 0x0F => ofFormat .f0 w .tamerInit
  | 0x10 => ofFormat .f0 w .tamerDisable
  | 0x11 => ofFormat .fb w (.supervise (fieldB w))
  | 0x12 => ofFormat .fb w (.tick (fieldB w))
  | 0x13 => ofFormat .f0 w .powerOnReset
  | _ => .error (.undefinedOperation w)

/-- R90: a word of format F0. -/
def wordF0 (op : BitVec 8) : OpWord := (0 : BitVec 24) ++ op

/-- R90: a word of format FB. -/
def wordFB (op : BitVec 8) (b : Bool) : OpWord := (0 : BitVec 23) ++ BitVec.ofBool b ++ op

/-- R90: a word of format FM. -/
def wordFM (op : BitVec 8) (m : BitVec 2) : OpWord := (0 : BitVec 22) ++ m ++ op

/-- R90: a word of format FI. -/
def wordFI (op idx : BitVec 8) : OpWord := (0 : BitVec 16) ++ idx ++ op

/-- R90: a word of format FIW. -/
def wordFIW (op idx data : BitVec 8) : OpWord := (0 : BitVec 8) ++ data ++ idx ++ op

/-- R90: a word of format FV. -/
def wordFV (op : BitVec 8) (v : BitVec 16) : OpWord := v ++ (0 : BitVec 8) ++ op

/-- The operation word of an operation (R90, R91, R93). -/
def encode : Instr → OpWord
  | .regWrite idx data => wordFIW 0x01 idx data
  | .regRead idx => wordFI 0x02 idx
  | .resetCounters b => wordFB 0x03 b
  | .enableIsr b => wordFB 0x04 b
  | .clearIsr => wordF0 0x05
  | .setTuneMode m => wordFM 0x06 m
  | .readCount idx => wordFI 0x07 idx
  | .dacWrite v => wordFV 0x08 v
  | .capture => wordF0 0x09
  | .poll => wordF0 0x0A
  | .fsmCoarseMin => wordF0 0x0B
  | .fsmCoarseMax => wordF0 0x0B
  | .fsmCoarseDone => wordF0 0x0B
  | .fsmFineTune => wordF0 0x0B
  | .calCompute => wordF0 0x0C
  | .fineCorrect => wordF0 0x0D
  | .rearm => wordF0 0x0E
  | .tamerInit => wordF0 0x0F
  | .tamerDisable => wordF0 0x10
  | .supervise en => wordFB 0x11 en
  | .tick en => wordFB 0x12 en
  | .powerOnReset => wordF0 0x13

/-- The operation word of which `w` is the low `nbits` bits, every bit above them 0 (log entry 14). -/
def tableWord (nbits w : Nat) : OpWord := BitVec.ofNat 32 (w % 2 ^ nbits)

/-- What the decoder reads from a word as spec/opcode_table.json numbers its bits. The word alone cannot select a row of
FSM_STEP (R92), so the TuneState of the reset state, CoarseTuneMin, is used (log entry 6). -/
def decodeTableWord (nbits w : Nat) : Option Instr := (decode .coarseTuneMin (tableWord nbits w)).toOption

end Sys2Proof
end

