-- ==== Sys2Proof/Machine/State.lean ====
section
/-! DEFINITION. The block's state as plain data (10_state.md section 1), what a step may answer beside a next state
(60_exceptions.md R220, R224), and the state after power-on (70_reset_and_hazards.md R250). -/

namespace Sys2Proof.Machine

/-- No fault exists: the block raises no exception and no access can fault (R220, R222, R223, R71); 93's treatments `fault`
and `stuck` are "never used". Safe: nothing the hardware does is stopped here (log entry 9). -/
inductive Fault where
  deriving DecidableEq, Repr

/-- Where the model has no meaning to give (R224). Each is safe: nothing is proved past a refusal. -/
inductive Refusal where
  /-- An operation without a meaning yet, by its table mnemonic. Raised by no arm of this model. -/
  | notModelled (mnemonic : String)
  /-- Raised by `step`: the word's opcode is reserved or a must-be-zero bit is set (R92, R94). Safe. -/
  | undefinedOperation (w : OpWord)
  /-- Raised by DAC_WRITE invoked directly with `v > DAC_MAX` (R131). Safe. -/
  | dacRange (v : U16)
  /-- Raised by READ_COUNT invoked directly with `idx > 252` (R107). Safe. -/
  | countIndexRange (idx : BitVec 8)
  /-- Raised by every operation when a constraint of R7 fails (R253). Safe. -/
  | badConfiguration
  deriving DecidableEq, Repr

/-- What REG_READ and READ_COUNT "return" (R100, R107). -/
inductive Returned where
  /-- the byte of REG_READ -/
  | byte (b : Byte)
  /-- the i32 of READ_COUNT -/
  | count (n : I32)
  deriving DecidableEq, Repr

/-- The outside world as plain data: the model's own fields, not the spec's state (log entries 3, 4, 5). -/
structure Environment where
  /-- Answers to reads already named, oldest first; behind them stands the free value `Config.envByte` (R75). -/
  answers : List Byte
  /-- How many reads have been answered: the index of the next free byte. -/
  draws : Nat
  /-- Operation words invoked directly and not yet run, oldest first (D34). -/
  pending : List OpWord
  /-- How many enable samples the supervisory loop has drawn (R204). -/
  samples : Nat
  deriving DecidableEq, Repr

/-- The complete architectural state (10_state.md section 1), with the configuration of R7 and the model's own `ret` and
`env`. -/
structure State where
  /-- The configuration (R7); no operation changes it. -/
  cfg : Config
  /-- Control-register shadow (R20). -/
  ctrl : Byte
  /-- Authoritative trim DAC value (R23). -/
  trim : U16
  /-- Record: 1 s error count (R24). -/
  e1 : I32
  /-- Record: 10 s error count (R24). -/
  e10 : I32
  /-- Record: 100 s error count (R24). -/
  e100 : I32
  /-- Record: 1 s epoch complete (R25). -/
  f1 : Bool
  /-- Record: 10 s epoch complete (R25). -/
  f10 : Bool
  /-- Record: 100 s epoch complete (R25). -/
  f100 : Bool
  /-- Record ready, the mailbox flag (R26). -/
  ready : Bool
  /-- Calibration point 0, x (R27). -/
  x0 : I32
  /-- Calibration point 0, y (R27). -/
  y0 : U16
  /-- Calibration point 1, x (R27). -/
  x1 : I32
  /-- Calibration point 1, y (R27). -/
  y1 : U16
  /-- Calibration slope (R28). -/
  slope : F32
  /-- Calibration y-intercept (R29). -/
  yint : U16
  /-- Calibration FSM state (R31). -/
  tstate : TuneState
  /-- Enable level latched at the last SUPERVISE (R33). -/
  enQ : Bool
  /-- Every bus transaction, in the order performed (R35). -/
  trace : List Txn
  /-- The value last returned by a directly invoked REG_READ or READ_COUNT: the model's own output (log entry 7). -/
  ret : Option Returned
  /-- The outside world. -/
  env : Environment
  deriving DecidableEq, Repr

/-- What a step answers. -/
abbrev Result := Host.Outcome State Fault Refusal

/-- The state right after POWER_ON_RESET under a configuration (R250, R251): the trace holds the two byte writes of
`DAC_WRITE(DAC_POWERUP_DEFAULT)`, low byte first (log entry 8). -/
def State.powerOn (c : Config) : State where
  cfg := c
  ctrl := 0x00
  trim := BitVec.ofNat 16 c.dacPowerupDefault
  e1 := 0
  e10 := 0
  e100 := 0
  f1 := false
  f10 := false
  f100 := false
  ready := false
  x0 := 0
  y0 := 0
  x1 := 0
  y1 := 0
  slope := c.slopePowerup
  yint := 0
  tstate := .coarseTuneMin
  enQ := false
  trace := [.write c.idxDacLo (BitVec.ofNat 8 c.dacPowerupDefault),
            .write c.idxDacHi (BitVec.ofNat 8 (c.dacPowerupDefault / 256))]
  ret := none
  env := { answers := [], draws := 0, pending := [], samples := 0 }

/-- The machine right after reset: POWER_ON_RESET under the default configuration of R7 (log entry 1). -/
def State.reset : State := State.powerOn Config.default

end Sys2Proof.Machine
end

