-- ==== Sys2Proof/Machine/Operands.lean ====
section
/-! DEFINITION. Operand forms: TuneMode and TuneState codes, the fields of the control byte, byte splitting and assembly,
and clamping (00_scope.md R11, 30_encoding.md section 1). -/

namespace Sys2Proof.Machine

/-- R86: the code of a TuneMode. -/
def modeCode : TuneMode → BitVec 2
  | .disabled => 0b00
  | .onePPS => 0b01
  | .tenMHz => 0b10

/-- R86: the TuneMode of a code; 0b11 is unrecognised. -/
def modeOfCode (m : BitVec 2) : Option TuneMode :=
  if m = 0b00 then some .disabled
  else if m = 0b01 then some .onePPS
  else if m = 0b10 then some .tenMHz
  else none

/-- R87: the 2-bit encoding of `s.tstate`; it is written to no register. -/
def tuneStateCode : TuneState → BitVec 2
  | .coarseTuneMin => 0b00
  | .coarseTuneMax => 0b01
  | .coarseTuneDone => 0b10
  | .fineTune => 0b11

/-- R81: bit 0 of the control byte, `reset`. -/
def ctrlReset (c : Byte) : Bool := c.getLsbD 0

/-- R81: bit 1 of the control byte, `irq_enable`. -/
def ctrlIrqEnable (c : Byte) : Bool := c.getLsbD 1

/-- R81: bit 2 of the control byte, `irq_clear`. -/
def ctrlIrqClear (c : Byte) : Bool := c.getLsbD 2

/-- R81: bits 5:3 of the control byte, reserved. -/
def ctrlReserved (c : Byte) : BitVec 3 := c.extractLsb' 3 3

/-- R81: bits 7:6 of the control byte, `tune_mode`. -/
def ctrlTuneMode (c : Byte) : BitVec 2 := c.extractLsb' 6 2

/-- `c[0] <- b`. -/
def withReset (c : Byte) (b : Bool) : Byte := if b then c ||| 0x01 else c &&& 0xFE

/-- `c[1] <- b`. -/
def withIrqEnable (c : Byte) (b : Bool) : Byte := if b then c ||| 0x02 else c &&& 0xFD

/-- `c | 0x04`: the byte CLEAR_ISR writes (R88, R105). -/
def withIrqClear (c : Byte) : Byte := c ||| 0x04

/-- `c[7:6] <- m`. -/
def withTuneMode (c : Byte) (m : BitVec 2) : Byte := (c &&& 0x3F) ||| (m ++ (0 : BitVec 6))

/-- R88: the control byte of its fields, reserved bits and `irq_clear` zero. -/
def ctrlByte (mode : BitVec 2) (irqEnable reset : Bool) : Byte :=
  mode ++ (0 : BitVec 4) ++ BitVec.ofBool irqEnable ++ BitVec.ofBool reset

/-- R84: `v[7:0]`, for DAC_LO. -/
def dacLow (v : U16) : Byte := v.extractLsb' 0 8

/-- R84: `v[15:8]`, for DAC_HI. -/
def dacHigh (v : U16) : Byte := v.extractLsb' 8 8

/-- R63, R83: a counter of its four bytes, least significant first. -/
def countOfBytes (b0 b1 b2 b3 : Byte) : I32 := b3 ++ b2 ++ b1 ++ b0

/-- R11: `clamp(v, lo, hi)`. -/
def clamp (v lo hi : Int) : Int := if v < lo then lo else if hi < v then hi else v

/-- A DAC count held as a `u16`: exact for the values 0..65535 that the clamp of R164 and R168 leaves. -/
def u16OfInt (v : Int) : U16 := BitVec.ofInt 16 v

/-- A DAC parameter of R7 held as a `u16`: exact under the constraints of R7. -/
def u16OfNat (n : Nat) : U16 := BitVec.ofNat 16 n

end Sys2Proof.Machine
end

