-- ==== Sys2Proof/Machine/Ops.lean ====
section
/-! DEFINITION. The shared operations: one bus read, one bus write, the shadow's flush, the refusals of 60_exceptions.md R224
around a meaning, and where the next operation word comes from. The block takes no exception (R220), so there is no entry
operation: what the spec calls the interrupt "handler" is CAPTURE (R229), and what undoes it is REARM (R230). -/

namespace Sys2Proof.Machine

/-- The byte the environment answers to the next read, at physical address `addr` (R75): the oldest answer already named,
or else a free draw. -/
def answerAt (addr : Nat) (s : State) : Byte :=
  match s.env.answers with
  | b :: _ => b
  | [] => Config.envByte s.env.draws addr s.trace

/-- The environment after it has answered a read. -/
def Environment.answered (e : Environment) : Environment :=
  { e with answers := e.answers.tail, draws := e.draws + 1 }

/-- R10, R100: `RegRead(idx)`, one byte read transaction at `BASE + 4*idx`. Answers the byte and the state after it. -/
def regRead (idx : Nat) (s : State) : Byte × State :=
  let b := answerAt (s.cfg.regAddr idx) s
  (b, { s with trace := s.trace ++ [.read idx b], env := s.env.answered })

/-- R10, R101: `RegWrite(idx, b)`, one byte write transaction at `BASE + 4*idx`. -/
def regWrite (idx : Nat) (b : Byte) (s : State) : State := { s with trace := s.trace ++ [.write idx b] }

/-- R102: `flush()` writes the whole shadow byte through. -/
def flush (s : State) : State := regWrite s.cfg.idxCtrl s.ctrl s

/-- R224: an operation is refused under a bad configuration, and otherwise completes with a next state (R220). -/
def accept (s t : State) : Result := if s.cfg.valid then .next t else .refused .badConfiguration

/-- R224: as `accept`, with an operand condition of the operation, refused by name when it fails. -/
def acceptIf (ok : Bool) (r : Refusal) (s t : State) : Result := if ok then accept s t else
  if s.cfg.valid then .refused r else .refused .badConfiguration

/-- The next operation word and the state it runs in: the oldest directly invoked word (D34), or, when none is pending, the
supervisory loop's own TICK with the enable level it samples now (R203, R204, R253; log entries 4 and 5). -/
def nextOpWord (s : State) : OpWord × State :=
  match s.env.pending with
  | w :: rest => (w, { s with env := { s.env with pending := rest } })
  | [] =>
    (encode (.tick (Config.enableSample s.env.samples s.trace)),
      { s with env := { s.env with samples := s.env.samples + 1 } })

/-- `s` with `w` as the oldest pending operation word. -/
def invokeNext (w : OpWord) (s : State) : State :=
  { s with env := { s.env with pending := w :: s.env.pending } }

end Sys2Proof.Machine
end

