-- ==== Sys2Proof/Machine/DacTrim.lean ====
section
/-! DEFINITION. The DAC Trim Writer (41_dac_trim.md R130 to R132). -/

namespace Sys2Proof.Machine

/-- R130: the only writer of `s.trim`; low byte first, no range check (R131). -/
def dacWrite (v : U16) (s : State) : State :=
  regWrite s.cfg.idxDacHi (dacHigh v) (regWrite s.cfg.idxDacLo (dacLow v) { s with trim := v })

/-- R130: DAC_WRITE invoked directly; a value above `DAC_MAX` is refused (R131, R224). -/
def execDacWrite (v : U16) (s : State) : Result :=
  acceptIf (decide (v.toNat ≤ s.cfg.dacMax)) (.dacRange v) s (dacWrite v s)

end Sys2Proof.Machine
end

