-- ==== Sys2Proof/Machine/Flags.lean ====
section
/-! DEFINITION. The block's Boolean conditions (10_state.md R34: it has no arithmetic flags): the epoch flags of a STAT byte,
the epoch selection, the gating by the enable, and the edges of the enable. -/

namespace Sys2Proof.Machine

/-- R82, R142: bit `k` of a STAT byte. -/
def statFlag (k : Nat) (stat : Byte) : Bool := stat.getLsbD k

/-- R38, R140: a condition is pending when any bit of the whole STAT byte is set. -/
def statPending (stat : Byte) : Bool := stat != 0

/-- R167: the selected error count and its scale, by the fixed priority 1 s, 10 s, 100 s; none when no flag is set. -/
def selectedEpoch (s : State) : Option (Int × Int) :=
  if s.f1 then some (s.e1.toInt, 1)
  else if s.f10 then some (s.e10.toInt, 10)
  else if s.f100 then some (s.e100.toInt, 100)
  else none

/-- R205: POLL and FSM_STEP do nothing while this holds. -/
def gated (s : State) : Bool := !s.enQ && !s.cfg.runWhileDisabled

/-- R200: `en = 1 and s.en_q = 0`. -/
def risingEdge (en : Bool) (s : State) : Bool := en && !s.enQ

/-- R200: `en = 0 and s.en_q = 1`. -/
def fallingEdge (en : Bool) (s : State) : Bool := !en && s.enQ

end Sys2Proof.Machine
end

