-- ==== Sys2Proof/Machine/Float.lean ====
section
/-! DEFINITION. The numeric primitives of 00_scope.md R11: binary32 conversion, multiplication and division rounded to
nearest, ties to even, and `round` to an integer, halves away from zero. A finite pattern stands for the exact fraction
± `f32Num` / `f32Den`; every result is rounded once from the exact fraction. -/

namespace Sys2Proof.Machine

/-- The integer significand: 24 bits for a normal number, 23 for a subnormal one or zero. -/
def f32Significand (x : F32) : Nat := if x.expField = 0 then x.fracField else 2 ^ 23 + x.fracField

/-- Numerator of a finite pattern's magnitude (subnormals have the exponent of field 1). -/
def f32Num (x : F32) : Nat := f32Significand x * 2 ^ (max x.expField 1 - 150)

/-- Denominator of a finite pattern's magnitude: a power of two. -/
def f32Den (x : F32) : Nat := 2 ^ (150 - max x.expField 1)

/-- The exact value of a finite pattern. -/
def f32Value (x : F32) : Rat := (if x.sign then -1 else 1) * ((f32Num x : Rat) / (f32Den x : Rat))

/-- `a / b` to the nearest natural number, ties to even. -/
def divRoundEven (a b : Nat) : Nat :=
  let q := a / b
  let r := a % b
  if 2 * r < b then q else if b < 2 * r then q + 1 else if q % 2 = 0 then q else q + 1

/-- `⌊log2 (n / d)⌋` for `n, d > 0`. -/
def floorLog2 (n d : Nat) : Int :=
  let k : Int := (Nat.log2 n : Int) - (Nat.log2 d : Int)
  if n * 2 ^ (-k).toNat < d * 2 ^ k.toNat then k - 1 else k

/-- The exponent of the last place of `n / d` in binary32: 23 below its leading bit, never under the subnormals' -149. -/
def f32Exponent (n d : Nat) : Int := max (floorLog2 n d - 23) (-149)

/-- The magnitude bits of `n / d` rounded to binary32, ties to even; the infinity pattern when that overflows.
A carry out of the significand lands in the exponent field by the addition. -/
def f32Magnitude (n d : Nat) : Nat :=
  if n = 0 then 0
  else
    let e := f32Exponent n d
    min ((e + 149).toNat * 2 ^ 23 + divRoundEven (n * 2 ^ (-e).toNat) (d * 2 ^ e.toNat)) 0x7F800000

/-- The binary32 value nearest to `± n / d` (`d > 0`), ties to even. -/
def f32OfRatio (neg : Bool) (n d : Nat) : F32 := BitVec.ofNat 32 ((if neg then 2 ^ 31 else 0) + f32Magnitude n d)

/-- R11: `to_f32(n)`. -/
def toF32 (n : Int) : F32 := f32OfRatio (decide (n < 0)) n.natAbs 1

/-- R11: `a *f b`. With an operand that is not finite no rule states the product: a free value (log entry 10). -/
def f32Mul (a b : F32) : F32 :=
  if a.isFinite && b.isFinite then f32OfRatio (a.sign ^^ b.sign) (f32Num a * f32Num b) (f32Den a * f32Den b)
  else Config.f32MulOpen a b

/-- R11: `a /f b`. With a zero divisor or an operand that is not finite no rule states the quotient: a free value
(log entry 10). -/
def f32Div (a b : F32) : F32 :=
  if a.isFinite && b.isFinite && f32Num b != 0 then
    f32OfRatio (a.sign ^^ b.sign) (f32Num a * f32Den b) (f32Den a * f32Num b)
  else Config.f32DivOpen a b

/-- `a / b` to the nearest natural number, halves up. -/
def divRoundHalfUp (a b : Nat) : Nat := (2 * a + b) / (2 * b)

/-- R11: `round(x)`, the nearest integer, halves away from zero. Of a value that is not finite no rule states the result:
a free value (log entry 10). -/
def roundF32 (x : F32) : Int :=
  if x.isFinite then
    let r : Int := divRoundHalfUp (f32Num x) (f32Den x)
    if x.sign then -r else r
  else Config.roundOpen x

end Sys2Proof.Machine
end

