-- ==== Sys2Proof/Machine/RegInterface.lean ====
section
/-! DEFINITION. The Register Interface operations (40_register_interface.md R100 to R108). -/

namespace Sys2Proof.Machine

/-- R103: `s.ctrl[0] <- b; flush()`. -/
def resetCounters (b : Bool) (s : State) : State := flush { s with ctrl := withReset s.ctrl b }

/-- R104: `s.ctrl[1] <- b; flush()`. -/
def enableIsr (b : Bool) (s : State) : State := flush { s with ctrl := withIrqEnable s.ctrl b }

/-- R105: one write of the shadow with `irq_clear` set; the shadow keeps it clear. -/
def clearIsr (s : State) : State := regWrite s.cfg.idxCtrl (withIrqClear s.ctrl) s

/-- R106: `s.ctrl[7:6] <- m; flush()`. -/
def writeTuneMode (m : BitVec 2) (s : State) : State := flush { s with ctrl := withTuneMode s.ctrl m }

/-- R106 for a recognised mode, in the order R257 keeps. -/
def changeTuneMode (mode : TuneMode) (s : State) : State :=
  let held := resetCounters true (writeTuneMode (modeCode mode) (enableIsr false s))
  if mode = .disabled then held else enableIsr true (resetCounters false held)

/-- R106: SET_TUNE_MODE; an unrecognised code is silently ignored. -/
def setTuneMode (m : BitVec 2) (s : State) : State :=
  match modeOfCode m with
  | none => s
  | some mode => changeTuneMode mode s

/-- R107: four byte reads in ascending index, little-endian, as an i32. -/
def readCount (idx : Nat) (s : State) : I32 × State :=
  let r0 := regRead idx s
  let r1 := regRead (idx + 1) r0.2
  let r2 := regRead (idx + 2) r1.2
  let r3 := regRead (idx + 3) r2.2
  (countOfBytes r0.1 r1.1 r2.1 r3.1, r3.2)

/-- R100: REG_READ; the byte is returned (log entry 7). -/
def execRegRead (idx : BitVec 8) (s : State) : Result :=
  let r := regRead idx.toNat s
  accept s { r.2 with ret := some (.byte r.1) }

/-- R101: REG_WRITE; it updates neither the shadow nor the trim (R260). -/
def execRegWrite (idx data : BitVec 8) (s : State) : Result := accept s (regWrite idx.toNat data s)

/-- R103: RESET_COUNTERS. -/
def execResetCounters (b : Bool) (s : State) : Result := accept s (resetCounters b s)

/-- R104: ENABLE_ISR. -/
def execEnableIsr (b : Bool) (s : State) : Result := accept s (enableIsr b s)

/-- R105: CLEAR_ISR. -/
def execClearIsr (s : State) : Result := accept s (clearIsr s)

/-- R106: SET_TUNE_MODE. -/
def execSetTuneMode (m : BitVec 2) (s : State) : Result := accept s (setTuneMode m s)

/-- R107: READ_COUNT; the count is returned (log entry 7). An index above 252 is refused (R224). -/
def execReadCount (idx : BitVec 8) (s : State) : Result :=
  let r := readCount idx.toNat s
  acceptIf (decide (idx.toNat ≤ 252)) (.countIndexRange idx) s { r.2 with ret := some (.count r.1) }

end Sys2Proof.Machine
end

