-- ==== Sys2Proof/Machine/Calibration.lean ====
section
/-! DEFINITION. The Calibration State Machine, the calibration engine and the fine correction (43_calibration_fsm.md). -/

namespace Sys2Proof.Machine

/-- R169: REARM; reset is released before interrupts are enabled. -/
def rearm (s : State) : State := enableIsr true (resetCounters false s)

/-- R164: the slope of the line through two points, `to_f32(dy) /f to_f32(dx)`. -/
def lineSlope (x0 : I32) (y0 : U16) (x1 : I32) (y1 : U16) : F32 :=
  f32Div (toF32 ((y1.toNat : Int) - y0.toNat)) (toF32 (x1.toInt - x0.toInt))

/-- R164: the intercept of a line of slope `m` through `(x0, y0)`, clamped to the DAC's range. -/
def lineIntercept (dacMax : Nat) (m : F32) (x0 : I32) (y0 : U16) : U16 :=
  u16OfInt (clamp ((y0.toNat : Int) - roundF32 (f32Mul m (toF32 x0.toInt))) 0 dacMax)

/-- R164, R165: CAL_COMPUTE. With equal x-coordinates the intercept takes the configured default and the slope is kept. -/
def calCompute (s : State) : State :=
  if s.x1 = s.x0 then { s with yint := u16OfNat s.cfg.dacDegenerateDefault }
  else
    let m := lineSlope s.x0 s.y0 s.x1 s.y1
    { s with slope := m, yint := lineIntercept s.cfg.dacMax m s.x0 s.y0 }

/-- R168: the correction in DAC counts of error count `e` at scale `k`: rounded product, then truncating division. -/
def correction (m : F32) (e k : Int) : Int := (roundF32 (f32Mul (toF32 e) m)).tdiv k

/-- R168: FINE_CORRECT. Without a completed epoch there is no correction and no write (C3). -/
def fineCorrect (s : State) : State :=
  match selectedEpoch s with
  | none => s
  | some (e, k) => dacWrite (u16OfInt (clamp ((s.trim.toNat : Int) - correction s.slope e k) 0 s.cfg.dacMax)) s

/-- R161: the COARSE_MIN arm; it reads no record data. -/
def coarseMinArm (s : State) : State :=
  { resetCounters true (dacWrite (u16OfNat s.cfg.trimdacMin) s) with tstate := .coarseTuneMax }

/-- R162: the COARSE_MAX arm; calibration point 0, no flag examined. -/
def coarseMaxArm (s : State) : State :=
  let p := { s with x0 := s.e1, y0 := u16OfNat s.cfg.trimdacMin }
  { resetCounters true (dacWrite (u16OfNat s.cfg.trimdacMax) p) with tstate := .coarseTuneDone }

/-- R163: the COARSE_DONE arm; calibration point 1, the line, and the STATE mark. -/
def coarseDoneArm (s : State) : State :=
  let c := calCompute { s with x1 := s.e1, y1 := u16OfNat s.cfg.trimdacMax }
  { regWrite c.cfg.idxState c.cfg.stateValCoarseDone (dacWrite c.yint c) with tstate := .fineTune }

/-- R166: the FINE_TUNE arm; the state stays FineTune. -/
def fineTuneArm (s : State) : State := fineCorrect s

/-- R160: the arm `s.tstate` selects. -/
def fsmArm (s : State) : State :=
  match s.tstate with
  | .coarseTuneMin => coarseMinArm s
  | .coarseTuneMax => coarseMaxArm s
  | .coarseTuneDone => coarseDoneArm s
  | .fineTune => fineTuneArm s

/-- R160: FSM_STEP. Gated by R205; consumes the ready record before acting; REARM is the last action (R258). -/
def fsmStep (s : State) : State :=
  if gated s then s
  else if s.ready then rearm (fsmArm { s with ready := false })
  else s

/-- FSM_STEP, row COARSE_MIN (R160, R161). The word is FSM_STEP's, so `s.tstate` selects the arm (R92; log entry 6). -/
def execFsmCoarseMin (s : State) : Result := accept s (fsmStep s)

/-- FSM_STEP, row COARSE_MAX (R160, R162). The word is FSM_STEP's, so `s.tstate` selects the arm (R92; log entry 6). -/
def execFsmCoarseMax (s : State) : Result := accept s (fsmStep s)

/-- FSM_STEP, row COARSE_DONE (R160, R163). The word is FSM_STEP's, so `s.tstate` selects the arm (R92; log entry 6). -/
def execFsmCoarseDone (s : State) : Result := accept s (fsmStep s)

/-- FSM_STEP, row FINE_TUNE (R160, R166). The word is FSM_STEP's, so `s.tstate` selects the arm (R92; log entry 6). -/
def execFsmFineTune (s : State) : Result := accept s (fsmStep s)

/-- R164: CAL_COMPUTE invoked directly (R171); it is not gated (R205). -/
def execCalCompute (s : State) : Result := accept s (calCompute s)

/-- R168: FINE_CORRECT invoked directly; it is not gated (R205). -/
def execFineCorrect (s : State) : Result := accept s (fineCorrect s)

/-- R169: REARM invoked directly; it is not gated (R205). -/
def execRearm (s : State) : Result := accept s (rearm s)

end Sys2Proof.Machine
end

