-- ==== Sys2Proof/Machine/Capture.lean ====
section
/-! DEFINITION. Measurement Capture, the measurement epoch sequencer (42_measurement_capture.md R140 to R145). -/

namespace Sys2Proof.Machine

/-- R141 step 1: interrupts off, counters held. -/
def freezeCounters (s : State) : State := resetCounters true (enableIsr false s)

/-- R141 step 2: the three counters, in the order 1 s, 10 s, 100 s. -/
def readCounters (s : State) : State :=
  let c1 := readCount s.cfg.idxErr1s s
  let c10 := readCount s.cfg.idxErr10s { c1.2 with e1 := c1.1 }
  let c100 := readCount s.cfg.idxErr100s { c10.2 with e10 := c10.1 }
  { c100.2 with e100 := c100.1 }

/-- R141 step 3, R142: one STAT read; each flag from its own bit. -/
def readFlags (s : State) : State :=
  let r := regRead s.cfg.idxStat s
  { r.2 with
    f1 := statFlag s.cfg.statBit1s r.1
    f10 := statFlag s.cfg.statBit10s r.1
    f100 := statFlag s.cfg.statBit100s r.1 }

/-- R141: CAPTURE, steps 1 to 5; an unconsumed record is overwritten (R143). -/
def capture (s : State) : State :=
  { clearIsr (readFlags (readCounters (freezeCounters s))) with ready := true }

/-- R140: POLL, gated by R205. -/
def poll (s : State) : State :=
  if gated s then s
  else
    let r := regRead s.cfg.idxStat s
    if statPending r.1 then capture r.2 else r.2

/-- R141: CAPTURE invoked directly; it is not gated (R205). -/
def execCapture (s : State) : Result := accept s (capture s)

/-- R140: POLL. -/
def execPoll (s : State) : Result := accept s (poll s)

end Sys2Proof.Machine
end

