-- ==== Sys2Proof/Machine/Supervisory.lean ====
section
/-! DEFINITION. The Supervisory Loop and the tick (44_supervisory.md), and POWER_ON_RESET (70_reset_and_hazards.md R250). -/

namespace Sys2Proof.Machine

/-- R201: TAMER_INIT. -/
def tamerInit (s : State) : State := regWrite s.cfg.idxState Config.stateValInit (setTuneMode (modeCode .onePPS) s)

/-- R202: TAMER_DISABLE. -/
def tamerDisable (s : State) : State := setTuneMode (modeCode .disabled) s

/-- R200: what an edge of the enable does; nothing when there is none. -/
def superviseEdge (en : Bool) (s : State) : State :=
  if risingEdge en s then { tamerInit s with tstate := .coarseTuneMin, ready := true }
  else if fallingEdge en s then { tamerDisable s with tstate := .coarseTuneMin, ready := false }
  else s

/-- R200: SUPERVISE. -/
def supervise (en : Bool) (s : State) : State := { superviseEdge en s with enQ := en }

/-- R203: TICK, the block's unit of progress. -/
def tick (en : Bool) (s : State) : State := fsmStep (poll (supervise en s))

/-- R250: every field of the block to its power-on value, then the DAC is driven. The configuration, the value last returned
and the outside world are not the block's state and stay (log entry 12). -/
def powerOnReset (s : State) : State :=
  dacWrite (u16OfNat s.cfg.dacPowerupDefault)
    { s with
      ctrl := 0x00
      tstate := .coarseTuneMin
      ready := false
      e1 := 0
      e10 := 0
      e100 := 0
      f1 := false
      f10 := false
      f100 := false
      x0 := 0
      x1 := 0
      y0 := 0
      y1 := 0
      slope := s.cfg.slopePowerup
      yint := 0
      enQ := false
      trace := [] }

/-- R201: TAMER_INIT. -/
def execTamerInit (s : State) : Result := accept s (tamerInit s)

/-- R202: TAMER_DISABLE. -/
def execTamerDisable (s : State) : Result := accept s (tamerDisable s)

/-- R200: SUPERVISE. -/
def execSupervise (en : Bool) (s : State) : Result := accept s (supervise en s)

/-- R203: TICK. -/
def execTick (en : Bool) (s : State) : Result := accept s (tick en s)

/-- R250: POWER_ON_RESET. -/
def execPowerOnReset (s : State) : Result := accept s (powerOnReset s)

end Sys2Proof.Machine
end

