-- ==== Sys2Proof/Machine/Dispatch.lean ====
section
/-! DEFINITION. The dispatch of an operation to its meaning, one arm per constructor of Instr. -/

namespace Sys2Proof.Machine

def exec (i : Instr) (s : State) : Host.Outcome State Fault Refusal :=
  match i with
  | .regWrite idx data => Sys2Proof.Machine.execRegWrite idx data s
  | .regRead idx => Sys2Proof.Machine.execRegRead idx s
  | .resetCounters b => Sys2Proof.Machine.execResetCounters b s
  | .enableIsr b => Sys2Proof.Machine.execEnableIsr b s
  | .clearIsr => Sys2Proof.Machine.execClearIsr s
  | .setTuneMode m => Sys2Proof.Machine.execSetTuneMode m s
  | .readCount idx => Sys2Proof.Machine.execReadCount idx s
  | .dacWrite v => Sys2Proof.Machine.execDacWrite v s
  | .capture => Sys2Proof.Machine.execCapture s
  | .poll => Sys2Proof.Machine.execPoll s
  | .fsmCoarseMin => Sys2Proof.Machine.execFsmCoarseMin s
  | .fsmCoarseMax => Sys2Proof.Machine.execFsmCoarseMax s
  | .fsmCoarseDone => Sys2Proof.Machine.execFsmCoarseDone s
  | .fsmFineTune => Sys2Proof.Machine.execFsmFineTune s
  | .calCompute => Sys2Proof.Machine.execCalCompute s
  | .fineCorrect => Sys2Proof.Machine.execFineCorrect s
  | .rearm => Sys2Proof.Machine.execRearm s
  | .tamerInit => Sys2Proof.Machine.execTamerInit s
  | .tamerDisable => Sys2Proof.Machine.execTamerDisable s
  | .supervise en => Sys2Proof.Machine.execSupervise en s
  | .tick en => Sys2Proof.Machine.execTick en s
  | .powerOnReset => Sys2Proof.Machine.execPowerOnReset s

end Sys2Proof.Machine
end

