-- ==== Sys2Proof/Machine/Step.lean ====
section
/-! DEFINITION. One step: the next operation word is decoded and executed. -/

namespace Sys2Proof.Machine

/-- One operation of the block, atomic (R32, D1): the next word (`nextOpWord`), decoded in the current TuneState (R92), then
executed. An undefined word is refused by name (R92, R224). -/
def step (s : State) : Host.Outcome State Fault Refusal :=
  let f := nextOpWord s
  match decode s.tstate f.1 with
  | .ok i => exec i f.2
  | .error (.undefinedOperation w) => .refused (.undefinedOperation w)

/-- `s` with an operation word invoked next (log entry 5): the block stores no program and has no program counter (R74), so
the word is put at the head of the queue that `step` takes its next word from, and nothing else changes. -/
def State.withFetchWord (s : State) (nbits w : Nat) : State := invokeNext (tableWord nbits w) s

end Sys2Proof.Machine
end

