-- ==== Sys2Proof/Machine/Observe.lean ====
section
/-! DEFINITION. Observations on the trace (10_state.md R35): the byte last written to a register, the DAC registers' word and
the DAC outputs a model must admit (70_reset_and_hazards.md R259), and the transaction counts of R263. The machine never
reads them (R76, R252). -/

namespace Sys2Proof.Machine.Observe

/-- The byte a transaction writes to register `idx`, if it writes it. -/
def writtenBy (idx : Nat) : Txn → Option Byte
  | .write i b => if i = idx then some b else none
  | .read _ _ => none

/-- The byte last written to register `idx` in a trace; none before the first write (R252: unspecified). -/
def lastWrite (idx : Nat) (tr : List Txn) : Option Byte := (tr.filterMap (writtenBy idx)).getLast?

/-- R84: the word the two DAC registers hold after a trace; none while one of them was never written. -/
def dacWord (c : Config) (tr : List Txn) : Option U16 :=
  match lastWrite c.idxDacHi tr, lastWrite c.idxDacLo tr with
  | some hi, some lo => some (hi ++ lo)
  | _, _ => none

/-- R259: the new low byte with the old high byte. -/
def tornWord (old new : U16) : U16 := dacHigh old ++ dacLow new

/-- R259, U12: the DAC outputs to admit between the two byte writes of DAC_WRITE `new`. -/
def possibleDacOutputs (old new : U16) : List U16 := [old, new, tornWord old new]

/-- Whether a transaction is a read. -/
def isRead : Txn → Bool
  | .read _ _ => true
  | .write _ _ => false

/-- How many reads a list of transactions holds (R263). -/
def readCountOf (tr : List Txn) : Nat := tr.countP isRead

/-- How many writes a list of transactions holds (R263). -/
def writeCountOf (tr : List Txn) : Nat := tr.countP (fun t => !isRead t)

end Sys2Proof.Machine.Observe
end

