-- ==== Sys2Proof/Safety.lean ====
section
/-! DEFINITION. What a safe run keeps (the invariants the spec names for the block's state) and the vocabulary claims are
stated in. -/

namespace Sys2Proof.Machine

/-- R22: the shadow never holds the pulse bit or a reserved bit, and its mode is a recognised one. -/
def ShadowOk (c : Byte) : Prop := ctrlIrqClear c = false ∧ ctrlReserved c = 0 ∧ ctrlTuneMode c ≠ 0b11

/-- R23, R29: the trim and the intercept lie in `[0, DAC_MAX]`. -/
def DacOk (s : State) : Prop := s.trim.toNat ≤ s.cfg.dacMax ∧ s.yint.toNat ≤ s.cfg.dacMax

/-- R60: every transaction recorded is one of the window's 256 byte registers. -/
def TraceInWindow (s : State) : Prop := ∀ t ∈ s.trace, t.idx ≤ 255

/-- The invariant of the block: a valid configuration (R7), the shadow (R22), the DAC range (R23, R29), a finite slope
(R28), and accesses inside the window (R60). -/
structure State.Inv (s : State) : Prop where
  cfg : s.cfg.valid = true
  shadow : ShadowOk s.ctrl
  dac : DacOk s
  slope : F32.isFinite s.slope = true
  window : TraceInWindow s

/-- POLL and FSM_STEP act (R205): the block is not gated. -/
def Ungated (s : State) : Prop := s.enQ = true ∨ s.cfg.runWhileDisabled = true

/-- A write of the control register. -/
def ctrlWrite (c : Config) (b : Byte) : Txn := .write c.idxCtrl b

/-- R130: the two byte writes of the DAC count `n`, low byte first. -/
def dacWrites (c : Config) (n : Nat) : List Txn :=
  [.write c.idxDacLo (BitVec.ofNat 8 n), .write c.idxDacHi (BitVec.ofNat 8 (n / 256))]

/-- R107: the four reads of a counter, in ascending index. -/
def countReads (idx : Nat) (b0 b1 b2 b3 : Byte) : List Txn :=
  [.read idx b0, .read (idx + 1) b1, .read (idx + 2) b2, .read (idx + 3) b3]

/-- R63: the two's complement value of four bytes, least significant first. -/
def leInt32 (b0 b1 b2 b3 : Byte) : Int :=
  let n : Int := b0.toNat + 256 * b1.toNat + 65536 * b2.toNat + 16777216 * b3.toNat
  if n < 2147483648 then n else n - 4294967296

/-- The bytes the environment answered in a list of transactions, in order. -/
def readBytes (tr : List Txn) : List Byte :=
  tr.filterMap (fun t => match t with
    | .read _ b => some b
    | .write _ _ => none)

/-- R76: the reads and writes the block's own operations make: reads of STAT and of the counters, writes of CTRL, STATE and
the DAC registers. -/
def ownAccess (c : Config) : Txn → Prop
  | .read i _ => i = c.idxStat ∨ (c.idxErr1s ≤ i ∧ i ≤ c.idxErr1s + 3) ∨ (c.idxErr10s ≤ i ∧ i ≤ c.idxErr10s + 3) ∨
      (c.idxErr100s ≤ i ∧ i ≤ c.idxErr100s + 3)
  | .write i _ => i = c.idxCtrl ∨ i = c.idxState ∨ i = c.idxDacLo ∨ i = c.idxDacHi

/-- spec/opcode_table.json: mask and match of each operation word, in opcode order (FSM_STEP's four rows have one word). -/
def operationRows : List (OpWord × OpWord) :=
  [(0xFF0000FF, 0x00000001), (0xFFFF00FF, 0x00000002), (0xFFFFFEFF, 0x00000003), (0xFFFFFEFF, 0x00000004),
   (0xFFFFFFFF, 0x00000005), (0xFFFFFCFF, 0x00000006), (0xFFFF00FF, 0x00000007), (0x0000FFFF, 0x00000008),
   (0xFFFFFFFF, 0x00000009), (0xFFFFFFFF, 0x0000000A)] ++
  [(0xFFFFFFFF, 0x0000000B), (0xFFFFFFFF, 0x0000000C), (0xFFFFFFFF, 0x0000000D), (0xFFFFFFFF, 0x0000000E),
   (0xFFFFFFFF, 0x0000000F), (0xFFFFFFFF, 0x00000010), (0xFFFFFEFF, 0x00000011), (0xFFFFFEFF, 0x00000012),
   (0xFFFFFFFF, 0x00000013)]

end Sys2Proof.Machine
end

