-- ==== Sys2Proof/WellFormed.lean ====
section
/-! DEFINITION. The operand conditions of 60_exceptions.md R224: which operations, invoked directly, the model gives a
meaning under a configuration. Encodability needs no check: operands have their field's width (Syntax.lean). -/

namespace Sys2Proof

/-- R131, R224 `DacRange`: a directly invoked DAC_WRITE must pass a value of at most `DAC_MAX`. -/
def dacOperandOk (c : Config) (v : BitVec 16) : Bool := decide (v.toNat ≤ c.dacMax)

/-- R107, R224 `CountIndexRange`: a directly invoked READ_COUNT must name an index of at most 252. -/
def countIndexOk (idx : BitVec 8) : Bool := decide (idx.toNat ≤ 252)

/-- The two operand checks of R224; every other operation is always permitted (R232). -/
def Instr.wellFormed (c : Config) : Instr → Bool
  | .dacWrite v => dacOperandOk c v
  | .readCount idx => countIndexOk idx
  | .regWrite _ _ | .regRead _ | .resetCounters _ | .enableIsr _ | .clearIsr | .setTuneMode _ | .capture | .poll
  | .fsmCoarseMin | .fsmCoarseMax | .fsmCoarseDone | .fsmFineTune | .calCompute | .fineCorrect | .rearm
  | .tamerInit | .tamerDisable | .supervise _ | .tick _ | .powerOnReset => true

end Sys2Proof
end

