-- ==== Sys2Proof/Certificates/Slice0/Obligations.lean ====
section
/-! DEFINITION. The statements for the provers. Each docstring names the rule of spec/ it formalises. -/

open Sys2Proof Sys2Proof.Machine Sys2Proof.Machine.Observe

/-! Encoding -/

/-- 30_encoding.md section 2: decoding the word of any operation gives it back, every operand at every value; an FSM_STEP row
in the TuneState that selects it. -/
def Obligations.DecodeOfEncode : Prop :=
  ∀ (ts : TuneState) (i : Instr), i.selectedIn ts = true → decode ts (encode i) = .ok i

/-- 30_encoding.md section 2: a word that decodes is the word of what it decodes to, so no bit of it is dropped. -/
def Obligations.EncodeOfDecode : Prop :=
  ∀ (ts : TuneState) (w : OpWord) (i : Instr), decode ts w = .ok i → encode i = w ∧ i.selectedIn ts = true

/-- R92, R94: a word is undefined exactly when it matches no row of the opcode table, in every TuneState. -/
def Obligations.UndefinedWordsMatchNoRow : Prop :=
  ∀ (ts : TuneState) (w : OpWord),
    decode ts w = .error (.undefinedOperation w) ↔ ∀ r ∈ operationRows, w &&& r.1 ≠ r.2

/-- 95_test_vectors.md 2.1: words written out from R90 and R91. -/
def Obligations.SpecWordsDecode : Prop :=
  decode .fineTune 0x00860001 = .ok (.regWrite 0 0x86) ∧ decode .fineTune 0x00000507 = .ok (.readCount 5) ∧
  decode .fineTune 0x00000306 = .ok (.setTuneMode 3) ∧ decode .fineTune 0x7D710008 = .ok (.dacWrite 32113) ∧
  decode .fineTune 0x00000112 = .ok (.tick true) ∧ decode .fineTune 0x0000000B = .ok .fsmFineTune ∧
  decode .coarseTuneMax 0x0000000B = .ok .fsmCoarseMax ∧ decode .fineTune 0x00000013 = .ok .powerOnReset ∧
  decode .fineTune 0x00000205 = .error (.undefinedOperation 0x00000205) ∧
  decode .fineTune 0x00000014 = .error (.undefinedOperation 0x00000014)

/-! The step and the refusals -/

/-- A step runs the decoded operation: the oldest word invoked directly, taken off the queue (D34), or, when none is pending,
the supervisory loop's TICK with the level it samples (R203, R253; the queue and the sample are the model's, log entries 4
and 5). -/
def Obligations.StepRunsDecodedOperation : Prop :=
  ∀ (s : State) (i : Instr),
    (∀ w rest, s.env.pending = w :: rest → decode s.tstate w = .ok i →
      step s = exec i { s with env := { s.env with pending := rest } }) ∧
    (s.env.pending = [] →
      step s = exec (.tick (Config.enableSample s.env.samples s.trace))
        { s with env := { s.env with samples := s.env.samples + 1 } })

/-- R220, R224, R232: under a valid configuration an operation completes with a next state exactly when its operands are
those R224 permits; without one, none does. -/
def Obligations.OperationCompletesExactlyWhenPermitted : Prop :=
  ∀ (i : Instr) (s : State),
    (∃ t, exec i s = .next t) ↔ s.cfg.valid = true ∧ i.wellFormed s.cfg = true

/-- R224's four refusals, each where the model raises it. The order is the model's choice (log entry 13): an undefined word is
refused as such under every configuration, and BadConfiguration comes before DacRange and CountIndexRange. So is the queue the
word arrives by (log entry 5). -/
def Obligations.RefusalsByName : Prop :=
  ∀ s : State,
    (∀ w rest, s.env.pending = w :: rest → (∀ r ∈ operationRows, w &&& r.1 ≠ r.2) →
      step s = .refused (.undefinedOperation w)) ∧
    (∀ v : U16, s.cfg.valid = true → s.cfg.dacMax < v.toNat → exec (.dacWrite v) s = .refused (.dacRange v)) ∧
    (∀ idx : BitVec 8, s.cfg.valid = true → 252 < idx.toNat →
      exec (.readCount idx) s = .refused (.countIndexRange idx)) ∧
    (s.cfg.valid = false → ∀ i, exec i s = .refused .badConfiguration)

/-! Reset and the invariant -/

/-- R250: POWER_ON_RESET from any state: every field of the block; the trace ends as the two DAC writes. -/
def Obligations.PowerOnResetState : Prop :=
  encode .powerOnReset = 0x00000013 ∧ ∀ s : State, s.cfg.valid = true → ∃ (r : Option Returned) (e : Environment),
    exec .powerOnReset s = .next {
      cfg := s.cfg, ctrl := 0x00, trim := BitVec.ofNat 16 s.cfg.dacPowerupDefault, e1 := 0, e10 := 0, e100 := 0,
      f1 := false, f10 := false, f100 := false, ready := false, x0 := 0, y0 := 0, x1 := 0, y1 := 0,
      slope := s.cfg.slopePowerup, yint := 0, tstate := .coarseTuneMin, enQ := false,
      trace := dacWrites s.cfg s.cfg.dacPowerupDefault, ret := r, env := e }

/-- R250: the model's reset state is what POWER_ON_RESET leaves under the default configuration. -/
def Obligations.ResetStateIsPowerOn : Prop :=
  ∃ s : State, s.cfg = Config.default ∧ exec .powerOnReset s = .next State.reset

/-- The invariant (R22, R23, R28, R29, R60) holds at reset. -/
def Obligations.InvariantAtReset : Prop := State.reset.Inv

/-- R22, R23, R28, R29, R60: from every state that meets the invariant, every step keeps it. -/
def Obligations.StepKeepsInvariant : Prop :=
  ∀ s t : State, s.Inv → step s = .next t → t.Inv

/-- R35, R75 and the model's environment (log entry 3): every operation but POWER_ON_RESET appends to the trace, keeps the
configuration, and reads the environment's named answers in order, one per read it records. -/
def Obligations.TraceGrowsByTheAnswersRead : Prop :=
  ∀ (i : Instr) (s t : State), exec i s = .next t → i ≠ .powerOnReset →
    ∃ l : List Txn, t.trace = s.trace ++ l ∧ t.cfg = s.cfg ∧
      t.env = { s.env with
        answers := s.env.answers.drop (readBytes l).length
        draws := s.env.draws + (readBytes l).length } ∧
      (readBytes l).take s.env.answers.length = s.env.answers.take (readBytes l).length

/-- R75: for every byte there is an environment that answers it to a read, whatever the state of the block. -/
def Obligations.EveryByteIsAdmitted : Prop :=
  ∀ (s : State) (idx : BitVec 8) (b : Byte), s.cfg.valid = true → ∃ e e' : Environment,
    exec (.regRead idx) { s with env := e } =
      .next { s with trace := s.trace ++ [.read idx.toNat b], ret := some (.byte b), env := e' }

/-! Register Interface -/

/-- R101: REG_WRITE appends one write and changes nothing else, the shadow and the trim included. -/
def Obligations.RegWriteAppendsOneWrite : Prop :=
  ∀ idx data : BitVec 8, encode (.regWrite idx data) = wordFIW 0x01 idx data ∧ ∀ s : State, s.cfg.valid = true →
    exec (.regWrite idx data) s = .next { s with trace := s.trace ++ [.write idx.toNat data] }

/-- R100: REG_READ performs one read and returns its byte (the returned value's field is the model's, log entry 7). -/
def Obligations.RegReadReturnsTheByteRead : Prop :=
  ∀ (s : State) (idx : BitVec 8), s.cfg.valid = true → ∃ (b : Byte) (e : Environment),
    exec (.regRead idx) s = .next { s with trace := s.trace ++ [.read idx.toNat b], ret := some (.byte b), env := e }

/-- R103: RESET_COUNTERS sets bit 0 of the shadow to `b`, keeps the other bits, and writes the shadow through. -/
def Obligations.ResetCountersWritesBitZero : Prop :=
  ∀ b : Bool, encode (.resetCounters b) = wordFB 0x03 b ∧ ∀ s : State, s.cfg.valid = true → ∃ c : Byte,
    exec (.resetCounters b) s = .next { s with ctrl := c, trace := s.trace ++ [ctrlWrite s.cfg c] } ∧
    c.getLsbD 0 = b ∧ ∀ k, k ≠ 0 → c.getLsbD k = s.ctrl.getLsbD k

/-- R104: ENABLE_ISR sets bit 1 of the shadow to `b`, keeps the other bits, and writes the shadow through. -/
def Obligations.EnableIsrWritesBitOne : Prop :=
  ∀ b : Bool, encode (.enableIsr b) = wordFB 0x04 b ∧ ∀ s : State, s.cfg.valid = true → ∃ c : Byte,
    exec (.enableIsr b) s = .next { s with ctrl := c, trace := s.trace ++ [ctrlWrite s.cfg c] } ∧
    c.getLsbD 1 = b ∧ ∀ k, k ≠ 1 → c.getLsbD k = s.ctrl.getLsbD k

/-- R105: CLEAR_ISR writes the shadow with bit 2 set, once, and leaves the shadow as it is. -/
def Obligations.ClearIsrPulsesBitTwo : Prop :=
  ∀ s : State, s.cfg.valid = true → ∃ c : Byte,
    exec .clearIsr s = .next { s with trace := s.trace ++ [ctrlWrite s.cfg c] } ∧
    c.getLsbD 2 = true ∧ ∀ k, k ≠ 2 → c.getLsbD k = s.ctrl.getLsbD k

/-- R106, R257: SET_TUNE_MODE, its writes in order and its final shadow, for each code, from a shadow R22 allows. -/
def Obligations.SetTuneModeSequence : Prop :=
  (∀ m, encode (.setTuneMode m) = wordFM 0x06 m) ∧ ∀ s : State, s.cfg.valid = true → ShadowOk s.ctrl →
    let old := ctrlTuneMode s.ctrl
    let r := ctrlReset s.ctrl
    (∀ m : BitVec 2, m = 0b01 ∨ m = 0b10 → exec (.setTuneMode m) s = .next { s with
      ctrl := ctrlByte m true false
      trace := s.trace ++ [ctrlWrite s.cfg (ctrlByte old false r), ctrlWrite s.cfg (ctrlByte m false r),
        ctrlWrite s.cfg (ctrlByte m false true), ctrlWrite s.cfg (ctrlByte m false false),
        ctrlWrite s.cfg (ctrlByte m true false)] }) ∧
    exec (.setTuneMode 0b00) s = .next { s with
      ctrl := 0x01
      trace := s.trace ++ [ctrlWrite s.cfg (ctrlByte old false r), ctrlWrite s.cfg (ctrlByte 0b00 false r),
        ctrlWrite s.cfg 0x01] } ∧
    exec (.setTuneMode 0b11) s = .next s

/-- 95_test_vectors.md L1-7: disabling twice leaves the same shadow and the same last control byte as disabling once, from
any state. -/
def Obligations.DisableTwiceIsDisableOnce : Prop :=
  ∀ s t u : State, exec .tamerDisable s = .next t → exec .tamerDisable t = .next u →
    u.ctrl = t.ctrl ∧ lastWrite s.cfg.idxCtrl u.trace = some t.ctrl ∧ lastWrite s.cfg.idxCtrl t.trace = some t.ctrl

/-- R107: READ_COUNT reads four registers in ascending index and returns their little-endian two's complement value (the
returned value's field is the model's, log entry 7). -/
def Obligations.ReadCountIsLittleEndian : Prop :=
  ∀ (s : State) (idx : BitVec 8), s.cfg.valid = true → idx.toNat ≤ 252 →
    ∃ (b0 b1 b2 b3 : Byte) (n : I32) (e : Environment),
      exec (.readCount idx) s = .next { s with
        trace := s.trace ++ countReads idx.toNat b0 b1 b2 b3, ret := some (.count n), env := e } ∧
      n.toInt = leInt32 b0 b1 b2 b3

/-- 10_state.md R21: after every mutator of the shadow the control byte last written is the shadow; after CLEAR_ISR it is the
shadow with bit 2 set. -/
def Obligations.ShadowIsTheLastControlByte : Prop :=
  ∀ s : State, s.cfg.valid = true →
    (∀ i ∈ [Instr.resetCounters true, .resetCounters false, .enableIsr true, .enableIsr false, .setTuneMode 0b00,
        .setTuneMode 0b01, .setTuneMode 0b10, .rearm, .tamerInit, .tamerDisable],
      ∃ t, exec i s = .next t ∧ lastWrite t.cfg.idxCtrl t.trace = some t.ctrl) ∧
    ∃ t, exec .clearIsr s = .next t ∧ t.ctrl = s.ctrl ∧ lastWrite t.cfg.idxCtrl t.trace = some (s.ctrl ||| 0x04)

/-! DAC Trim Writer -/

/-- R130: DAC_WRITE stores the trim and writes its low byte, then its high byte. -/
def Obligations.DacWriteLowThenHigh : Prop :=
  ∀ v : U16, encode (.dacWrite v) = wordFV 0x08 v ∧ ∀ s : State, s.cfg.valid = true → v.toNat ≤ s.cfg.dacMax →
    exec (.dacWrite v) s = .next { s with trim := v, trace := s.trace ++ dacWrites s.cfg v.toNat }

/-- R259: between the two writes of DAC_WRITE the DAC registers hold the new low byte with the old high byte, which is one of
the outputs to admit; after both they hold the new word. -/
def Obligations.DacWordIsTornBetweenTheWrites : Prop :=
  ∀ (s : State) (old v : U16), s.cfg.valid = true → v.toNat ≤ s.cfg.dacMax → dacWord s.cfg s.trace = some old →
    ∃ (t : State) (lo hi : Txn) (torn : U16), exec (.dacWrite v) s = .next t ∧ t.trace = s.trace ++ [lo, hi] ∧
      dacWord s.cfg (s.trace ++ [lo]) = some torn ∧ torn.toNat = 256 * (old.toNat / 256) + v.toNat % 256 ∧
      torn ∈ possibleDacOutputs old v ∧ dacWord s.cfg t.trace = some v

/-- R23, R132: an operation that changes the trim leaves the DAC registers holding the new trim. -/
def Obligations.TrimChangesReachTheDac : Prop :=
  ∀ (i : Instr) (s t : State), exec i s = .next t → t.trim ≠ s.trim → dacWord t.cfg t.trace = some t.trim

/-! Measurement Capture -/

/-- R141, R142, R143: CAPTURE, its sixteen transactions in order, the record from the bytes they read, the flags from its own
STAT read, whatever the record held before. -/
def Obligations.CaptureFillsTheRecord : Prop :=
  encode .capture = 0x00000009 ∧ ∀ s : State, s.cfg.valid = true → ShadowOk s.ctrl →
    ∃ (a0 a1 a2 a3 b0 b1 b2 b3 c0 c1 c2 c3 st : Byte) (e1 e10 e100 : I32) (e : Environment),
      exec .capture s = .next { s with
        ctrl := ctrlByte (ctrlTuneMode s.ctrl) false true
        e1 := e1, e10 := e10, e100 := e100
        f1 := st.getLsbD s.cfg.statBit1s, f10 := st.getLsbD s.cfg.statBit10s, f100 := st.getLsbD s.cfg.statBit100s
        ready := true
        trace := s.trace ++ [ctrlWrite s.cfg (ctrlByte (ctrlTuneMode s.ctrl) false (ctrlReset s.ctrl)),
            ctrlWrite s.cfg (ctrlByte (ctrlTuneMode s.ctrl) false true)] ++
          countReads s.cfg.idxErr1s a0 a1 a2 a3 ++ countReads s.cfg.idxErr10s b0 b1 b2 b3 ++
          countReads s.cfg.idxErr100s c0 c1 c2 c3 ++
          [.read s.cfg.idxStat st, ctrlWrite s.cfg (ctrlByte (ctrlTuneMode s.ctrl) false true ||| 0x04)]
        env := e } ∧
      e1.toInt = leInt32 a0 a1 a2 a3 ∧ e10.toInt = leInt32 b0 b1 b2 b3 ∧ e100.toInt = leInt32 c0 c1 c2 c3

/-- R140: POLL returns at once when gated; otherwise it reads STAT once and captures exactly when any bit of it is set. -/
def Obligations.PollCapturesWhenStatIsNonZero : Prop :=
  encode .poll = 0x0000000A ∧ ∀ s : State, s.cfg.valid = true →
    (s.enQ = false → s.cfg.runWhileDisabled = false → exec .poll s = .next s) ∧
    (Ungated s → ∃ (st : Byte) (e : Environment),
      let u := { s with trace := s.trace ++ [.read s.cfg.idxStat st], env := e }
      (st = 0 → exec .poll s = .next u) ∧ (st ≠ 0 → ∃ t, exec .poll s = .next t ∧ exec .capture u = .next t))

/-- 10_state.md R24 to R26: outside CAPTURE, POLL, TICK and POWER_ON_RESET no operation writes the record's counts or flags,
and only those, FSM_STEP and SUPERVISE write its ready flag. -/
def Obligations.RecordIsWrittenOnlyByCapture : Prop :=
  ∀ (i : Instr) (s t : State), exec i s = .next t → i ∉ [Instr.capture, .poll, .powerOnReset] → (∀ en, i ≠ .tick en) →
    t.e1 = s.e1 ∧ t.e10 = s.e10 ∧ t.e100 = s.e100 ∧ t.f1 = s.f1 ∧ t.f10 = s.f10 ∧ t.f100 = s.f100 ∧
    ((∀ ts, i ≠ .fsmRow ts) → (∀ en, i ≠ .supervise en) → t.ready = s.ready)

/-- R143, R256: a second CAPTURE leaves nothing of the record before it: from two states that differ only in the record, it
leaves the same state, with the record ready. -/
def Obligations.CaptureOverwritesAnUnconsumedRecord : Prop :=
  ∀ (s : State) (e1 e10 e100 : I32) (f1 f10 f100 ready : Bool), s.cfg.valid = true →
    ∃ t, t.ready = true ∧ exec .capture s = .next t ∧
      exec .capture { s with
        e1 := e1, e10 := e10, e100 := e100, f1 := f1, f10 := f10, f100 := f100, ready := ready } = .next t

/-! Calibration -/

/-- R165: with equal x-coordinates CAL_COMPUTE sets the intercept to the configured default and writes nothing else. -/
def Obligations.DegenerateCalibration : Prop :=
  ∀ s : State, s.cfg.valid = true → s.x1 = s.x0 → ∃ y : U16,
    exec .calCompute s = .next { s with yint := y } ∧ y.toNat = s.cfg.dacDegenerateDefault

/-- R164: with different x-coordinates CAL_COMPUTE sets the slope to the binary32 quotient of the exact differences and the
intercept to the rounded, clamped value; nothing else changes and there is no transaction. -/
def Obligations.CalibrationLine : Prop :=
  ∀ s : State, s.cfg.valid = true → s.x1 ≠ s.x0 → ∃ (m : F32) (y : U16),
    exec .calCompute s = .next { s with slope := m, yint := y } ∧
    m = f32Div (toF32 ((s.y1.toNat : Int) - s.y0.toNat)) (toF32 (s.x1.toInt - s.x0.toInt)) ∧
    (y.toNat : Int) = max 0 (min (s.cfg.dacMax : Int) ((s.y0.toNat : Int) - roundF32 (f32Mul m (toF32 s.x0.toInt))))

/-- R28, R222: the slope of two points with different x-coordinates is finite, and so is its product with any error count, so
no value of the calibration or of a correction with that slope is a free value. -/
def Obligations.CalibrationIsFinite : Prop :=
  ∀ (x0 x1 : I32) (y0 y1 : U16) (n : I32), x1 ≠ x0 →
    let m := f32Div (toF32 ((y1.toNat : Int) - y0.toNat)) (toF32 (x1.toInt - x0.toInt))
    F32.isFinite m = true ∧ F32.isFinite (f32Mul m (toF32 n.toInt)) = true ∧
      F32.isFinite (f32Mul (toF32 n.toInt) m) = true

/-- 00_scope.md R11: conversion, multiplication and division give a binary32 value nearest to the exact one, and of two
equally near the one with the even significand. -/
def Obligations.BinaryArithmeticIsNearestEven : Prop :=
  ∀ y : F32, F32.isFinite y = true →
    (∀ n : Int, F32.isFinite (toF32 n) = true →
      |(n : Rat) - f32Value (toF32 n)| ≤ |(n : Rat) - f32Value y| ∧
      (|(n : Rat) - f32Value (toF32 n)| = |(n : Rat) - f32Value y| → f32Value y ≠ f32Value (toF32 n) →
        (toF32 n).getLsbD 0 = false)) ∧
    (∀ a b : F32, F32.isFinite a = true → F32.isFinite b = true → F32.isFinite (f32Mul a b) = true →
      |f32Value a * f32Value b - f32Value (f32Mul a b)| ≤ |f32Value a * f32Value b - f32Value y| ∧
      (|f32Value a * f32Value b - f32Value (f32Mul a b)| = |f32Value a * f32Value b - f32Value y| →
        f32Value y ≠ f32Value (f32Mul a b) → (f32Mul a b).getLsbD 0 = false)) ∧
    (∀ a b : F32, F32.isFinite a = true → F32.isFinite b = true → f32Value b ≠ 0 → F32.isFinite (f32Div a b) = true →
      |f32Value a / f32Value b - f32Value (f32Div a b)| ≤ |f32Value a / f32Value b - f32Value y| ∧
      (|f32Value a / f32Value b - f32Value (f32Div a b)| = |f32Value a / f32Value b - f32Value y| →
        f32Value y ≠ f32Value (f32Div a b) → (f32Div a b).getLsbD 0 = false))

/-- 00_scope.md R11: `round` of a finite value is an integer within a half of it, and of a halfway value the one further from
zero. -/
def Obligations.RoundIsHalfAwayFromZero : Prop :=
  ∀ x : F32, F32.isFinite x = true →
    |(roundF32 x : Rat) - f32Value x| ≤ 1 / 2 ∧
    (|(roundF32 x : Rat) - f32Value x| = 1 / 2 → |f32Value x| < |(roundF32 x : Rat)|)

/-- R167, R168: FINE_CORRECT uses the finest completed epoch, and only it; without one it changes nothing. -/
def Obligations.FineCorrectUsesTheFinestEpoch : Prop :=
  encode .fineCorrect = 0x0000000D ∧ ∀ s : State, s.cfg.valid = true →
    (s.f1 = false → s.f10 = false → s.f100 = false → exec .fineCorrect s = .next s) ∧
    ∀ (e : I32) (k : Int),
      (s.f1 = true ∧ e = s.e1 ∧ k = 1 ∨ s.f1 = false ∧ s.f10 = true ∧ e = s.e10 ∧ k = 10 ∨
        s.f1 = false ∧ s.f10 = false ∧ s.f100 = true ∧ e = s.e100 ∧ k = 100) →
      ∃ v : U16, exec .fineCorrect s = .next { s with trim := v, trace := s.trace ++ dacWrites s.cfg v.toNat } ∧
        (v.toNat : Int) = max 0 (min (s.cfg.dacMax : Int)
          ((s.trim.toNat : Int) - (roundF32 (f32Mul (toF32 e.toInt) s.slope)).tdiv k))

/-- R169: REARM releases the counters, then enables interrupts. -/
def Obligations.RearmReleasesThenEnables : Prop :=
  encode .rearm = 0x0000000E ∧ ∀ s : State, s.cfg.valid = true → ShadowOk s.ctrl →
    exec .rearm s = .next { s with
      ctrl := ctrlByte (ctrlTuneMode s.ctrl) true false
      trace := s.trace ++ [ctrlWrite s.cfg (ctrlByte (ctrlTuneMode s.ctrl) (ctrlIrqEnable s.ctrl) false),
        ctrlWrite s.cfg (ctrlByte (ctrlTuneMode s.ctrl) true false)] }

/-- R160, R205: FSM_STEP changes nothing when no record is ready, or when the block is gated; whichever row names it. -/
def Obligations.FsmStepIdlesWithoutARecord : Prop :=
  ∀ (s : State) (ts : TuneState), s.cfg.valid = true →
    s.ready = false ∨ (s.enQ = false ∧ s.cfg.runWhileDisabled = false) → exec (.fsmRow ts) s = .next s

/-- R160, R161: the COARSE_MIN arm, whatever the record holds. -/
def Obligations.CoarseMinArm : Prop :=
  ∀ (s : State) (ts : TuneState), s.cfg.valid = true → ShadowOk s.ctrl → Ungated s → s.ready = true →
    s.tstate = .coarseTuneMin →
    exec (.fsmRow ts) s = .next { s with
      ready := false
      trim := BitVec.ofNat 16 s.cfg.trimdacMin
      ctrl := ctrlByte (ctrlTuneMode s.ctrl) true false
      tstate := .coarseTuneMax
      trace := s.trace ++ dacWrites s.cfg s.cfg.trimdacMin ++
        [ctrlWrite s.cfg (ctrlByte (ctrlTuneMode s.ctrl) (ctrlIrqEnable s.ctrl) true),
         ctrlWrite s.cfg (ctrlByte (ctrlTuneMode s.ctrl) (ctrlIrqEnable s.ctrl) false),
         ctrlWrite s.cfg (ctrlByte (ctrlTuneMode s.ctrl) true false)] }

/-- R160, R162: the COARSE_MAX arm: calibration point 0, whatever the flags say. -/
def Obligations.CoarseMaxArm : Prop :=
  ∀ (s : State) (ts : TuneState), s.cfg.valid = true → ShadowOk s.ctrl → Ungated s → s.ready = true →
    s.tstate = .coarseTuneMax →
    exec (.fsmRow ts) s = .next { s with
      ready := false
      x0 := s.e1
      y0 := BitVec.ofNat 16 s.cfg.trimdacMin
      trim := BitVec.ofNat 16 s.cfg.trimdacMax
      ctrl := ctrlByte (ctrlTuneMode s.ctrl) true false
      tstate := .coarseTuneDone
      trace := s.trace ++ dacWrites s.cfg s.cfg.trimdacMax ++
        [ctrlWrite s.cfg (ctrlByte (ctrlTuneMode s.ctrl) (ctrlIrqEnable s.ctrl) true),
         ctrlWrite s.cfg (ctrlByte (ctrlTuneMode s.ctrl) (ctrlIrqEnable s.ctrl) false),
         ctrlWrite s.cfg (ctrlByte (ctrlTuneMode s.ctrl) true false)] }

/-- R160, R163: the COARSE_DONE arm: calibration point 1, the line CAL_COMPUTE gives for it, the intercept on the DAC, and the
STATE mark. -/
def Obligations.CoarseDoneArm : Prop :=
  ∀ (s : State) (ts : TuneState), s.cfg.valid = true → ShadowOk s.ctrl → Ungated s → s.ready = true →
    s.tstate = .coarseTuneDone → ∃ (m : F32) (y : U16),
    exec .calCompute { s with x1 := s.e1, y1 := BitVec.ofNat 16 s.cfg.trimdacMax } =
      .next { s with x1 := s.e1, y1 := BitVec.ofNat 16 s.cfg.trimdacMax, slope := m, yint := y } ∧
    exec (.fsmRow ts) s = .next { s with
      ready := false
      x1 := s.e1
      y1 := BitVec.ofNat 16 s.cfg.trimdacMax
      slope := m
      yint := y
      trim := y
      ctrl := ctrlByte (ctrlTuneMode s.ctrl) true false
      tstate := .fineTune
      trace := s.trace ++ dacWrites s.cfg y.toNat ++
        [.write s.cfg.idxState s.cfg.stateValCoarseDone,
         ctrlWrite s.cfg (ctrlByte (ctrlTuneMode s.ctrl) (ctrlIrqEnable s.ctrl) false),
         ctrlWrite s.cfg (ctrlByte (ctrlTuneMode s.ctrl) true false)] }

/-- R160, R166: the FINE_TUNE arm is FINE_CORRECT, then REARM; the machine stays in FineTune. -/
def Obligations.FineTuneArm : Prop :=
  ∀ (s : State) (ts : TuneState), s.cfg.valid = true → Ungated s → s.ready = true → s.tstate = .fineTune →
    ∃ t u : State, exec .fineCorrect { s with ready := false } = .next t ∧ exec .rearm t = .next u ∧
      exec (.fsmRow ts) s = .next u ∧ u.tstate = .fineTune ∧ u.ready = false

/-- R170: the transition table, and R31: no other operation writes the state (TICK runs the three phases; POWER_ON_RESET sets
it anew). -/
def Obligations.TransitionTable : Prop :=
  ∀ (i : Instr) (s t : State), exec i s = .next t →
    (∀ ts, i = .fsmRow ts → t.tstate =
      if s.ready = true ∧ (s.enQ = true ∨ s.cfg.runWhileDisabled = true) then
        match s.tstate with
        | .coarseTuneMin => .coarseTuneMax
        | .coarseTuneMax => .coarseTuneDone
        | .coarseTuneDone => .fineTune
        | .fineTune => .fineTune
      else s.tstate) ∧
    (∀ en, i = .supervise en → t.tstate = if en = s.enQ then s.tstate else .coarseTuneMin) ∧
    ((∀ ts, i ≠ .fsmRow ts) → (∀ en, i ≠ .supervise en) → (∀ en, i ≠ .tick en) → i ≠ .powerOnReset →
      t.tstate = s.tstate)

/-- R170, 95_test_vectors.md L1-5: from CoarseTuneMin three consumed records take the machine to FineTune, and the points are
the 1 s errors of the second and third. -/
def Obligations.ThreeRecordsReachFineTune : Prop :=
  ∀ s0 s1 s2 s3 s4 s5 : State, Ungated s0 → s0.ready = true → s0.tstate = .coarseTuneMin →
    exec (.fsmRow s0.tstate) s0 = .next s1 → exec .capture s1 = .next s2 →
    exec (.fsmRow s2.tstate) s2 = .next s3 → exec .capture s3 = .next s4 →
    exec (.fsmRow s4.tstate) s4 = .next s5 →
    s1.tstate = .coarseTuneMax ∧ s3.tstate = .coarseTuneDone ∧ s5.tstate = .fineTune ∧
    s5.x0 = s2.e1 ∧ s5.y0.toNat = s0.cfg.trimdacMin ∧ s5.x1 = s4.e1 ∧ s5.y1.toNat = s0.cfg.trimdacMax

/-- R171: in FineTune, while the enable does not change, a TICK keeps the slope, the intercept and the points, and stays in
FineTune. -/
def Obligations.SessionKeepsTheCalibrationLine : Prop :=
  ∀ (s : State) (en : Bool), s.cfg.valid = true → s.tstate = .fineTune → s.enQ = en →
    ∃ t, exec (.tick en) s = .next t ∧ t.tstate = .fineTune ∧ t.slope = s.slope ∧ t.yint = s.yint ∧
      t.x0 = s.x0 ∧ t.y0 = s.y0 ∧ t.x1 = s.x1 ∧ t.y1 = s.y1

/-- 10_state.md R27 to R29: outside CAL_COMPUTE, FSM_STEP, TICK and POWER_ON_RESET no operation writes the calibration line;
in particular no enable edge does. -/
def Obligations.CalibrationLineFrame : Prop :=
  ∀ (i : Instr) (s t : State), exec i s = .next t → i ≠ .calCompute → i ≠ .powerOnReset → (∀ ts, i ≠ .fsmRow ts) →
    (∀ en, i ≠ .tick en) →
    t.slope = s.slope ∧ t.yint = s.yint ∧ t.x0 = s.x0 ∧ t.y0 = s.y0 ∧ t.x1 = s.x1 ∧ t.y1 = s.y1

/-! Supervisory Loop -/

/-- R201: TAMER_INIT: the mode change to OnePPS, then the STATE write; the final shadow is 0x42. -/
def Obligations.TamerInitSequence : Prop :=
  encode .tamerInit = 0x0000000F ∧ ∀ s : State, s.cfg.valid = true → ShadowOk s.ctrl →
    exec .tamerInit s = .next { s with
      ctrl := 0x42
      trace := s.trace ++ [ctrlWrite s.cfg (ctrlByte (ctrlTuneMode s.ctrl) false (ctrlReset s.ctrl)),
        ctrlWrite s.cfg (ctrlByte 0b01 false (ctrlReset s.ctrl)), ctrlWrite s.cfg 0x41, ctrlWrite s.cfg 0x40,
        ctrlWrite s.cfg 0x42, .write s.cfg.idxState 0x00] }

/-- R202: TAMER_DISABLE: the mode change to Disabled; neither the DAC nor STATE is written; the final shadow is 0x01. -/
def Obligations.TamerDisableSequence : Prop :=
  encode .tamerDisable = 0x00000010 ∧ ∀ s : State, s.cfg.valid = true → ShadowOk s.ctrl →
    exec .tamerDisable s = .next { s with
      ctrl := 0x01
      trace := s.trace ++ [ctrlWrite s.cfg (ctrlByte (ctrlTuneMode s.ctrl) false (ctrlReset s.ctrl)),
        ctrlWrite s.cfg (ctrlByte 0b00 false (ctrlReset s.ctrl)), ctrlWrite s.cfg 0x01] }

/-- R200: SUPERVISE on a rising edge, on a falling edge, and without an edge. -/
def Obligations.SuperviseEdges : Prop :=
  (∀ en, encode (.supervise en) = wordFB 0x11 en) ∧ ∀ s : State, s.cfg.valid = true →
    (s.enQ = false → ∃ u, exec .tamerInit s = .next u ∧
      exec (.supervise true) s = .next { u with tstate := .coarseTuneMin, ready := true, enQ := true }) ∧
    (s.enQ = true → ∃ u, exec .tamerDisable s = .next u ∧
      exec (.supervise false) s = .next { u with tstate := .coarseTuneMin, ready := false, enQ := false }) ∧
    exec (.supervise s.enQ) s = .next s

/-- R203: TICK is SUPERVISE, then POLL, then FSM_STEP in the TuneState POLL leaves. -/
def Obligations.TickIsSupervisePollStep : Prop :=
  ∀ en : Bool, encode (.tick en) = wordFB 0x12 en ∧ ∀ s : State, s.cfg.valid = true →
    ∃ a b c : State, exec (.supervise en) s = .next a ∧ exec .poll a = .next b ∧
      exec (.fsmRow b.tstate) b = .next c ∧ exec (.tick en) s = .next c

/-- R203: a TICK that is not gated leaves no record ready. -/
def Obligations.UngatedTickLeavesNoRecord : Prop :=
  ∀ (s : State) (en : Bool), s.cfg.valid = true → en = true ∨ s.cfg.runWhileDisabled = true →
    ∃ t, exec (.tick en) s = .next t ∧ t.ready = false ∧ t.enQ = en

/-- R203, R205: a TICK with the enable at 0 and `RUN_WHILE_DISABLED` false performs only SUPERVISE. -/
def Obligations.DisabledTickOnlySupervises : Prop :=
  ∀ s : State, s.cfg.valid = true → s.cfg.runWhileDisabled = false →
    ∃ t, exec (.tick false) s = .next t ∧ exec (.supervise false) s = .next t

/-- R200, 95_test_vectors.md L1-6: a disable and a re-enable discard a pending record: the record then consumed is the forced
one, it goes to COARSE_MIN, and the trim becomes `TRIMDAC_MIN`. -/
def Obligations.DisableDiscardsThePendingRecord : Prop :=
  ∀ (s a b : State), s.enQ = true → exec (.supervise false) s = .next a → exec (.supervise true) a = .next b →
    a.ready = false ∧ a.trim = s.trim ∧ b.ready = true ∧ b.tstate = .coarseTuneMin ∧
    ∃ c, exec (.fsmRow b.tstate) b = .next c ∧ c.tstate = .coarseTuneMax ∧ c.ready = false ∧
      c.trim.toNat = s.cfg.trimdacMin

/-- R261: the data of the record COARSE_MIN consumes have no effect: two states that differ only in them stay so, with the
same trace. -/
def Obligations.CoarseMinReadsNoRecordData : Prop :=
  ∀ (s t : State) (ts : TuneState) (e1 e10 e100 : I32) (f1 f10 f100 : Bool), s.tstate = .coarseTuneMin →
    exec (.fsmRow ts) s = .next t →
    exec (.fsmRow ts) { s with e1 := e1, e10 := e10, e100 := e100, f1 := f1, f10 := f10, f100 := f100 } =
      .next { t with e1 := e1, e10 := e10, e100 := e100, f1 := f1, f10 := f10, f100 := f100 }

/-- R262: with `RUN_WHILE_DISABLED`, a TICK with the enable at 0 and the mode Disabled that sees a non-zero STAT byte leaves
the counters running and interrupts enabled in mode Disabled, shadow 0x02. -/
def Obligations.RunningWhileDisabled : Prop :=
  ∀ (s : State) (st : Byte) (rest : List Byte), s.cfg.valid = true → s.cfg.runWhileDisabled = true → s.enQ = false →
    ShadowOk s.ctrl → ctrlTuneMode s.ctrl = 0b00 → s.env.answers = st :: rest → st ≠ 0 →
    ∃ t, exec (.tick false) s = .next t ∧ t.ctrl = 0x02 ∧ t.ready = false ∧ t.enQ = false

/-! The bus -/

/-- 20_memory.md R76: outside directly invoked REG_READ, REG_WRITE and READ_COUNT, an operation reads only STAT and the
counters and writes only CTRL, STATE and the DAC registers. -/
def Obligations.OwnAccessesOnly : Prop :=
  ∀ (i : Instr) (s t : State), exec i s = .next t → (∀ x, i ≠ .regRead x) → (∀ x d, i ≠ .regWrite x d) →
    (∀ x, i ≠ .readCount x) →
    ∀ x ∈ t.trace, x ∈ s.trace ∨ ownAccess s.cfg x

/-- 30_encoding.md R88, 10_state.md R22: from a shadow R22 allows, every CTRL byte the block's own operations write (a direct
REG_WRITE apart) has reserved bits 0 and a recognised mode, and carries `irq_clear` only in CLEAR_ISR's write, alone or inside
CAPTURE. -/
def Obligations.OwnControlBytes : Prop :=
  ∀ (i : Instr) (s t : State), exec i s = .next t → i ≠ .powerOnReset → (∀ x d, i ≠ .regWrite x d) → ShadowOk s.ctrl →
    ∃ l : List Txn, t.trace = s.trace ++ l ∧ ∀ b : Byte, .write s.cfg.idxCtrl b ∈ l →
      ctrlReserved b = 0 ∧ ctrlTuneMode b ≠ 0b11 ∧
      (ctrlIrqClear b = true → i = .clearIsr ∨ i = .capture ∨ i = .poll ∨ ∃ en, i = .tick en)

/-- 70_reset_and_hazards.md R260: a direct REG_WRITE to CTRL leaves the register different from the shadow until the next flush,
which writes the shadow. -/
def Obligations.DirectControlWriteLastsUntilTheNextFlush : Prop :=
  ∀ (s t u : State) (idx data : BitVec 8) (b : Bool), idx.toNat = s.cfg.idxCtrl →
    exec (.regWrite idx data) s = .next t → exec (.resetCounters b) t = .next u →
    t.ctrl = s.ctrl ∧ lastWrite s.cfg.idxCtrl t.trace = some data ∧
      lastWrite s.cfg.idxCtrl u.trace = some u.ctrl ∧ u.ctrl.getLsbD 0 = b ∧
      ∀ k, k ≠ 0 → u.ctrl.getLsbD k = s.ctrl.getLsbD k

/-- 20_memory.md R60, R65: every transaction of a state that meets the invariant is at a 4-aligned address inside the
32-bit address space. -/
def Obligations.AccessesAreAligned : Prop :=
  ∀ (s : State), s.Inv → ∀ x ∈ s.trace, s.cfg.regAddr x.idx % 4 = 0 ∧ s.cfg.regAddr x.idx + 3 < 2 ^ 32

/-- 70_reset_and_hazards.md R263: how many reads and writes each operation performs. -/
def Obligations.TransactionCounts : Prop :=
  ∀ (i : Instr) (s t : State), exec i s = .next t → i ≠ .powerOnReset →
    ∃ l : List Txn, t.trace = s.trace ++ l ∧
      let n := (readCountOf l, writeCountOf l)
      match i with
      | .regRead _ => n = (1, 0)
      | .regWrite _ _ | .resetCounters _ | .enableIsr _ | .clearIsr => n = (0, 1)
      | .setTuneMode m => n = if m = 0b11 then (0, 0) else if m = 0b00 then (0, 3) else (0, 5)
      | .readCount _ => n = (4, 0)
      | .dacWrite _ | .rearm => n = (0, 2)
      | .capture => n = (13, 3)
      | .poll =>
        if s.enQ = true ∨ s.cfg.runWhileDisabled = true then
          n = (1, 0) ∧ l = [.read s.cfg.idxStat 0] ∨
          n = (14, 3) ∧ ∃ b, b ≠ 0 ∧ l.head? = some (.read s.cfg.idxStat b)
        else n = (0, 0)
      | .fsmCoarseMin | .fsmCoarseMax | .fsmCoarseDone | .fsmFineTune =>
        n = if s.ready = true ∧ (s.enQ = true ∨ s.cfg.runWhileDisabled = true) then
            match s.tstate with
            | .coarseTuneMin | .coarseTuneMax | .coarseTuneDone => (0, 5)
            | .fineTune => if s.f1 = true ∨ s.f10 = true ∨ s.f100 = true then (0, 4) else (0, 2)
          else (0, 0)
      | .calCompute => n = (0, 0)
      | .fineCorrect => n = if s.f1 = true ∨ s.f10 = true ∨ s.f100 = true then (0, 2) else (0, 0)
      | .tamerInit => n = (0, 6)
      | .tamerDisable => n = (0, 3)
      | .supervise en => n = if en = s.enQ then (0, 0) else if en = true then (0, 6) else (0, 3)
      | .tick _ => n.1 ≤ 14 ∧ n.2 ≤ 14
      | .powerOnReset => True

/-- 00_scope.md R11: a conversion, product or quotient is finite exactly when the exact value rounds below 2 ^ 128, that is,
when its magnitude is under the midpoint of the largest finite value and 2 ^ 128. That a larger one is not
finite is presumed from IEEE 754 (log entry 10). -/
def Obligations.BinaryArithmeticOverflowsOnlyPastTheLargest : Prop :=
  (∀ n : Int, F32.isFinite (toF32 n) = true ↔ |(n : Rat)| < 2 ^ 128 - 2 ^ 103) ∧
  (∀ a b : F32, F32.isFinite a = true → F32.isFinite b = true →
    (F32.isFinite (f32Mul a b) = true ↔ |f32Value a * f32Value b| < 2 ^ 128 - 2 ^ 103)) ∧
  (∀ a b : F32, F32.isFinite a = true → F32.isFinite b = true → f32Value b ≠ 0 →
    (F32.isFinite (f32Div a b) = true ↔ |f32Value a / f32Value b| < 2 ^ 128 - 2 ^ 103))
end

