-- ==== Sys2Proof/Laws/Config.lean ====
section
/-! SUPPORT. What a valid configuration (00_scope.md R7) gives, one fact per lemma. -/

namespace Sys2Proof.Config

variable {c : Config}

theorem valid_iff : c.valid = true ↔ c.baseOk = true ∧ c.indicesOk = true ∧ c.dacOk = true ∧ c.statBitsOk = true ∧
    F32.isFinite c.slopePowerup = true := by
  simp [valid, and_assoc]

theorem base_of_valid (h : c.valid = true) : c.base % 4 = 0 ∧ c.base + 4 * 255 + 3 < 2 ^ 32 := by
  have := (valid_iff.1 h).1
  simp only [baseOk, Bool.and_eq_true, beq_iff_eq] at this
  exact ⟨this.1, of_decide_eq_true this.2⟩

theorem indices_le_of_valid (h : c.valid = true) : ∀ i ∈ c.indices, i ≤ 255 := by
  have := (valid_iff.1 h).2.1
  simp only [indicesOk, Bool.and_eq_true, List.all_eq_true, decide_eq_true_eq] at this
  exact this.1

theorem indices_nodup_of_valid (h : c.valid = true) : c.indices.Nodup := by
  have := (valid_iff.1 h).2.1
  simp only [indicesOk, Bool.and_eq_true, decide_eq_true_eq] at this
  exact this.2

/-- The DAC parameters' ranges. -/
theorem dac_of_valid (h : c.valid = true) :
    1 ≤ c.dacMax ∧ c.dacMax ≤ 65535 ∧ c.trimdacMin ≤ c.dacMax ∧ c.trimdacMax ≤ c.dacMax ∧
      c.dacPowerupDefault ≤ c.dacMax ∧ c.dacDegenerateDefault ≤ c.dacMax := by
  have := (valid_iff.1 h).2.2.1
  simpa [dacOk, and_assoc] using this

theorem slopePowerup_finite_of_valid (h : c.valid = true) : F32.isFinite c.slopePowerup = true := (valid_iff.1 h).2.2.2.2

/-- The registers the block writes have different indices. -/
theorem written_indices_distinct (h : c.valid = true) :
    c.idxCtrl ≠ c.idxState ∧ c.idxCtrl ≠ c.idxDacLo ∧ c.idxCtrl ≠ c.idxDacHi ∧ c.idxState ≠ c.idxDacLo ∧
      c.idxState ≠ c.idxDacHi ∧ c.idxDacLo ≠ c.idxDacHi := by
  have := indices_nodup_of_valid h
  simp only [indices, List.nodup_cons, List.mem_cons, not_or] at this
  exact ⟨this.1.2.1, this.1.2.2.1, this.1.2.2.2.1, this.2.2.1.1, this.2.2.1.2.1, this.2.2.2.1.1⟩

end Sys2Proof.Config
end

