-- ==== Sys2Proof/Laws/Encoding.lean ====
section
/-! SUPPORT. The fields of an operation word: what each format's word holds in them, a word rebuilt from them, and an opcode
table row's mask and match in terms of them. -/

namespace Sys2Proof

/-- Concatenation as a sum, the first part in the more significant position (R8). -/
theorem toNat_append_eq {m n : Nat} (x : BitVec m) (y : BitVec n) : (x ++ y).toNat = x.toNat * 2 ^ n + y.toNat := by
  rw [BitVec.toNat_append, ← Nat.shiftLeft_add_eq_or_of_lt y.isLt, Nat.shiftLeft_eq]

theorem toNat_field (w : OpWord) (lo n : Nat) : (w.extractLsb' lo n).toNat = w.toNat / 2 ^ lo % 2 ^ n := by
  rw [BitVec.extractLsb'_toNat, Nat.shiftRight_eq_div_pow]

theorem toNat_wordF0 (op : BitVec 8) : (wordF0 op).toNat = op.toNat := by
  simp only [wordF0, toNat_append_eq, BitVec.ofNat_eq_ofNat, BitVec.toNat_ofNat]
  omega

theorem toNat_wordFB (op : BitVec 8) (b : Bool) : (wordFB op b).toNat = b.toNat * 256 + op.toNat := by
  simp only [wordFB, toNat_append_eq, BitVec.ofNat_eq_ofNat, BitVec.toNat_ofNat, BitVec.toNat_ofBool]
  omega

theorem toNat_wordFM (op : BitVec 8) (m : BitVec 2) : (wordFM op m).toNat = m.toNat * 256 + op.toNat := by
  simp only [wordFM, toNat_append_eq, BitVec.ofNat_eq_ofNat, BitVec.toNat_ofNat]
  omega

theorem toNat_wordFI (op idx : BitVec 8) : (wordFI op idx).toNat = idx.toNat * 256 + op.toNat := by
  simp only [wordFI, toNat_append_eq, BitVec.ofNat_eq_ofNat, BitVec.toNat_ofNat]
  omega

theorem toNat_wordFIW (op idx data : BitVec 8) :
    (wordFIW op idx data).toNat = data.toNat * 65536 + idx.toNat * 256 + op.toNat := by
  simp only [wordFIW, toNat_append_eq, BitVec.ofNat_eq_ofNat, BitVec.toNat_ofNat]
  omega

theorem toNat_wordFV (op : BitVec 8) (v : BitVec 16) : (wordFV op v).toNat = v.toNat * 65536 + op.toNat := by
  simp only [wordFV, toNat_append_eq, BitVec.ofNat_eq_ofNat, BitVec.toNat_ofNat]
  omega

theorem opcodeOf_toNat (w : OpWord) : (opcodeOf w).toNat = w.toNat % 256 := by
  rw [opcodeOf, toNat_field]
  omega

/-- A one-bit field, as a number. -/
theorem fieldB_iff (w : OpWord) (b : Bool) : fieldB w = b ↔ w.toNat / 256 % 2 = b.toNat := by
  have : fieldB w = decide (w.toNat / 256 % 2 = 1) := by
    simp [fieldB, BitVec.getLsbD, Nat.testBit, Nat.shiftRight_eq_div_pow, beq_eq_decide]
  rw [this]
  cases b <;> simp

theorem fieldB_toNat (w : OpWord) : (fieldB w).toNat = w.toNat / 256 % 2 := ((fieldB_iff w _).1 rfl).symm

/-- The opcode of a word, read off its number. -/
theorem opcodeOf_eq {w : OpWord} {op : BitVec 8} (h : w.toNat % 256 = op.toNat) : opcodeOf w = op :=
  BitVec.eq_of_toNat_eq (by rw [opcodeOf_toNat, h])

/-- A field of a word, read off its number. -/
theorem field_eq {w : OpWord} {lo n : Nat} {x : BitVec n} (h : w.toNat / 2 ^ lo % 2 ^ n = x.toNat) :
    w.extractLsb' lo n = x := BitVec.eq_of_toNat_eq (by rw [toNat_field, h])

theorem zeroBits_toNat (f : Format) (w : OpWord) :
    f.zeroBits w = w.toNat / 2 ^ f.zeroField.1 % 2 ^ f.zeroField.2 := toNat_field _ _ _

theorem fields_wordF0 (op : BitVec 8) : opcodeOf (wordF0 op) = op ∧ Format.zeroBits .f0 (wordF0 op) = 0 := by
  have h := toNat_wordF0 op
  exact ⟨opcodeOf_eq (by omega), (zeroBits_toNat _ _).trans (by simp only [Format.zeroField]; omega)⟩

theorem fields_wordFB (op : BitVec 8) (b : Bool) :
    opcodeOf (wordFB op b) = op ∧ Format.zeroBits .fb (wordFB op b) = 0 ∧ fieldB (wordFB op b) = b := by
  have h := toNat_wordFB op b
  have hb := b.toNat_lt
  exact ⟨opcodeOf_eq (by omega), (zeroBits_toNat _ _).trans (by simp only [Format.zeroField]; omega), (fieldB_iff _ _).2 (by omega)⟩

theorem fields_wordFM (op : BitVec 8) (m : BitVec 2) :
    opcodeOf (wordFM op m) = op ∧ Format.zeroBits .fm (wordFM op m) = 0 ∧ fieldM (wordFM op m) = m := by
  have h := toNat_wordFM op m
  exact ⟨opcodeOf_eq (by omega), (zeroBits_toNat _ _).trans (by simp only [Format.zeroField]; omega), field_eq (by omega)⟩

theorem fields_wordFI (op idx : BitVec 8) :
    opcodeOf (wordFI op idx) = op ∧ Format.zeroBits .fi (wordFI op idx) = 0 ∧ fieldIdx (wordFI op idx) = idx := by
  have h := toNat_wordFI op idx
  exact ⟨opcodeOf_eq (by omega), (zeroBits_toNat _ _).trans (by simp only [Format.zeroField]; omega), field_eq (by omega)⟩

theorem fields_wordFIW (op idx data : BitVec 8) :
    opcodeOf (wordFIW op idx data) = op ∧ Format.zeroBits .fiw (wordFIW op idx data) = 0 ∧
      fieldIdx (wordFIW op idx data) = idx ∧ fieldData (wordFIW op idx data) = data := by
  have h := toNat_wordFIW op idx data
  exact ⟨opcodeOf_eq (by omega), (zeroBits_toNat _ _).trans (by simp only [Format.zeroField]; omega), field_eq (by omega), field_eq (by omega)⟩

theorem fields_wordFV (op : BitVec 8) (v : BitVec 16) :
    opcodeOf (wordFV op v) = op ∧ Format.zeroBits .fv (wordFV op v) = 0 ∧ fieldV (wordFV op v) = v := by
  have h := toNat_wordFV op v
  exact ⟨opcodeOf_eq (by omega), (zeroBits_toNat _ _).trans (by simp only [Format.zeroField]; omega), field_eq (by omega)⟩

/-- A word whose must-be-zero field is zero is not refused for it. -/
theorem ofFormat_ok {f : Format} {w : OpWord} {i : Instr}
    (h : f.zeroBits w = 0) : ofFormat f w i = .ok i := if_pos h

/-- What `ofFormat` accepts. -/
theorem ofFormat_eq_ok {f : Format} {w : OpWord} {i j : Instr} :
    ofFormat f w i = .ok j ↔ f.zeroBits w = 0 ∧ i = j := by
  unfold ofFormat
  split <;> simp_all

/-- A row of the opcode table: its mask covers the opcode and one must-be-zero field, and its match is the opcode. -/
theorem row_iff (w : OpWord) (op : BitVec 8) (lo n : Nat) (mask : OpWord)
    (hmask : ∀ k, k < 32 → mask.getLsbD k = (decide (k < 8) || decide (lo ≤ k ∧ k < lo + n)))
    (hlo : 8 ≤ lo) :
    w &&& mask = op.setWidth 32 ↔ opcodeOf w = op ∧ w.toNat / 2 ^ lo % 2 ^ n = 0 := by
  have hz : w.toNat / 2 ^ lo % 2 ^ n = 0 ↔ w.extractLsb' lo n = 0 := by
    rw [← toNat_field]
    exact ⟨fun h => BitVec.eq_of_toNat_eq (by simpa using h), fun h => by simp [h]⟩
  rw [hz]
  constructor
  · intro h
    have hb : ∀ k, k < 32 → (w.getLsbD k && mask.getLsbD k) = op.getLsbD k := by
      intro k hk
      have := congrArg (fun v => BitVec.getLsbD v k) h
      simpa [hk] using this
    constructor
    · apply BitVec.eq_of_getLsbD_eq
      intro k hk
      have := hb k (by omega)
      rw [hmask k (by omega)] at this
      simpa [opcodeOf, hk] using this
    · apply BitVec.eq_of_getLsbD_eq
      intro k hk
      simp only [BitVec.getLsbD_extractLsb', hk, decide_true, Bool.true_and]
      by_cases h32 : lo + k < 32
      · have := hb (lo + k) h32
        rw [hmask _ h32, BitVec.getLsbD_of_ge op _ (by omega)] at this
        simpa [hk] using this
      · rw [BitVec.getLsbD_of_ge _ _ (by omega)]
        simp
  · rintro ⟨h1, h2⟩
    apply BitVec.eq_of_getLsbD_eq
    intro k hk
    rw [BitVec.getLsbD_and, hmask k hk]
    by_cases h8 : k < 8
    · have h := congrArg (fun v => BitVec.getLsbD v k) h1
      simp only [opcodeOf, BitVec.getLsbD_extractLsb', h8, decide_true, Bool.true_and, Nat.zero_add] at h
      rw [h, BitVec.getLsbD_setWidth]
      simp only [h8, hk, decide_true, Bool.true_or, Bool.and_true, Bool.true_and]
    · rw [BitVec.getLsbD_setWidth, BitVec.getLsbD_of_ge op k (by omega)]
      by_cases hf : lo ≤ k ∧ k < lo + n
      · have h := congrArg (fun v => BitVec.getLsbD v (k - lo)) h2
        have hlt : k - lo < n := by omega
        have hadd : lo + (k - lo) = k := by omega
        simp only [BitVec.getLsbD_extractLsb', hlt, decide_true, Bool.true_and, hadd] at h
        rw [h]
        simp
      · simp [h8, hf]

end Sys2Proof
end

