-- ==== Sys2Proof/Laws/State.lean ====
section
/-! SUPPORT. One lemma per field for each of the two bus transactions and the flush, true by rfl, so that no later proof
unfolds a record update. -/

namespace Sys2Proof.Machine

section RegWrite
variable (idx : Nat) (b : Byte) (s : State)
@[simp] theorem regWrite_cfg : (regWrite idx b s).cfg = s.cfg := rfl
@[simp] theorem regWrite_ctrl : (regWrite idx b s).ctrl = s.ctrl := rfl
@[simp] theorem regWrite_trim : (regWrite idx b s).trim = s.trim := rfl
@[simp] theorem regWrite_e1 : (regWrite idx b s).e1 = s.e1 := rfl
@[simp] theorem regWrite_e10 : (regWrite idx b s).e10 = s.e10 := rfl
@[simp] theorem regWrite_e100 : (regWrite idx b s).e100 = s.e100 := rfl
@[simp] theorem regWrite_f1 : (regWrite idx b s).f1 = s.f1 := rfl
@[simp] theorem regWrite_f10 : (regWrite idx b s).f10 = s.f10 := rfl
@[simp] theorem regWrite_f100 : (regWrite idx b s).f100 = s.f100 := rfl
@[simp] theorem regWrite_ready : (regWrite idx b s).ready = s.ready := rfl
@[simp] theorem regWrite_x0 : (regWrite idx b s).x0 = s.x0 := rfl
@[simp] theorem regWrite_y0 : (regWrite idx b s).y0 = s.y0 := rfl
@[simp] theorem regWrite_x1 : (regWrite idx b s).x1 = s.x1 := rfl
@[simp] theorem regWrite_y1 : (regWrite idx b s).y1 = s.y1 := rfl
@[simp] theorem regWrite_slope : (regWrite idx b s).slope = s.slope := rfl
@[simp] theorem regWrite_yint : (regWrite idx b s).yint = s.yint := rfl
@[simp] theorem regWrite_tstate : (regWrite idx b s).tstate = s.tstate := rfl
@[simp] theorem regWrite_enQ : (regWrite idx b s).enQ = s.enQ := rfl
@[simp] theorem regWrite_ret : (regWrite idx b s).ret = s.ret := rfl
@[simp] theorem regWrite_env : (regWrite idx b s).env = s.env := rfl
@[simp] theorem regWrite_trace : (regWrite idx b s).trace = s.trace ++ [.write idx b] := rfl
end RegWrite

section RegRead
variable (idx : Nat) (s : State)
@[simp] theorem regRead_cfg : (regRead idx s).2.cfg = s.cfg := rfl
@[simp] theorem regRead_ctrl : (regRead idx s).2.ctrl = s.ctrl := rfl
@[simp] theorem regRead_trim : (regRead idx s).2.trim = s.trim := rfl
@[simp] theorem regRead_e1 : (regRead idx s).2.e1 = s.e1 := rfl
@[simp] theorem regRead_e10 : (regRead idx s).2.e10 = s.e10 := rfl
@[simp] theorem regRead_e100 : (regRead idx s).2.e100 = s.e100 := rfl
@[simp] theorem regRead_f1 : (regRead idx s).2.f1 = s.f1 := rfl
@[simp] theorem regRead_f10 : (regRead idx s).2.f10 = s.f10 := rfl
@[simp] theorem regRead_f100 : (regRead idx s).2.f100 = s.f100 := rfl
@[simp] theorem regRead_ready : (regRead idx s).2.ready = s.ready := rfl
@[simp] theorem regRead_x0 : (regRead idx s).2.x0 = s.x0 := rfl
@[simp] theorem regRead_y0 : (regRead idx s).2.y0 = s.y0 := rfl
@[simp] theorem regRead_x1 : (regRead idx s).2.x1 = s.x1 := rfl
@[simp] theorem regRead_y1 : (regRead idx s).2.y1 = s.y1 := rfl
@[simp] theorem regRead_slope : (regRead idx s).2.slope = s.slope := rfl
@[simp] theorem regRead_yint : (regRead idx s).2.yint = s.yint := rfl
@[simp] theorem regRead_tstate : (regRead idx s).2.tstate = s.tstate := rfl
@[simp] theorem regRead_enQ : (regRead idx s).2.enQ = s.enQ := rfl
@[simp] theorem regRead_ret : (regRead idx s).2.ret = s.ret := rfl
@[simp] theorem regRead_trace : (regRead idx s).2.trace = s.trace ++ [.read idx (regRead idx s).1] := rfl
@[simp] theorem regRead_answers : (regRead idx s).2.env.answers = s.env.answers.tail := rfl
@[simp] theorem regRead_draws : (regRead idx s).2.env.draws = s.env.draws + 1 := rfl
@[simp] theorem regRead_pending : (regRead idx s).2.env.pending = s.env.pending := rfl
@[simp] theorem regRead_samples : (regRead idx s).2.env.samples = s.env.samples := rfl
end RegRead

section Flush
variable (s : State)
@[simp] theorem flush_cfg : (flush s).cfg = s.cfg := rfl
@[simp] theorem flush_ctrl : (flush s).ctrl = s.ctrl := rfl
@[simp] theorem flush_trim : (flush s).trim = s.trim := rfl
@[simp] theorem flush_e1 : (flush s).e1 = s.e1 := rfl
@[simp] theorem flush_e10 : (flush s).e10 = s.e10 := rfl
@[simp] theorem flush_e100 : (flush s).e100 = s.e100 := rfl
@[simp] theorem flush_f1 : (flush s).f1 = s.f1 := rfl
@[simp] theorem flush_f10 : (flush s).f10 = s.f10 := rfl
@[simp] theorem flush_f100 : (flush s).f100 = s.f100 := rfl
@[simp] theorem flush_ready : (flush s).ready = s.ready := rfl
@[simp] theorem flush_x0 : (flush s).x0 = s.x0 := rfl
@[simp] theorem flush_y0 : (flush s).y0 = s.y0 := rfl
@[simp] theorem flush_x1 : (flush s).x1 = s.x1 := rfl
@[simp] theorem flush_y1 : (flush s).y1 = s.y1 := rfl
@[simp] theorem flush_slope : (flush s).slope = s.slope := rfl
@[simp] theorem flush_yint : (flush s).yint = s.yint := rfl
@[simp] theorem flush_tstate : (flush s).tstate = s.tstate := rfl
@[simp] theorem flush_enQ : (flush s).enQ = s.enQ := rfl
@[simp] theorem flush_ret : (flush s).ret = s.ret := rfl
@[simp] theorem flush_env : (flush s).env = s.env := rfl
@[simp] theorem flush_trace : (flush s).trace = s.trace ++ [.write s.cfg.idxCtrl s.ctrl] := rfl
end Flush

/-- The byte a read answers, when the environment's next answer is named (R75). -/
theorem regRead_fst_of_answers {idx : Nat} {s : State} {b : Byte} {rest : List Byte}
    (h : s.env.answers = b :: rest) : (regRead idx s).1 = b := by
  simp [regRead, answerAt, h]

/-- The byte a read answers, when none is named: a free value. -/
theorem regRead_fst_of_nil {idx : Nat} {s : State} (h : s.env.answers = []) :
    (regRead idx s).1 = Config.envByte s.env.draws (s.cfg.regAddr idx) s.trace := by
  simp [regRead, answerAt, h]

end Sys2Proof.Machine
end

