-- ==== Sys2Proof/Laws/Ops.lean ====
section
/-! SUPPORT. What each shared operation does, said once: the record update it makes and the transactions it appends. -/

namespace Sys2Proof.Machine

/-- `accept` answers a next state exactly under a valid configuration. -/
theorem accept_eq_next {s t u : State} : accept s t = .next u ↔ s.cfg.valid = true ∧ t = u := by
  unfold accept
  split <;> simp_all

theorem accept_of_valid {s t : State} (h : s.cfg.valid = true) : accept s t = .next t := by simp [accept, h]

theorem accept_of_invalid {s t : State} (h : s.cfg.valid = false) : accept s t = .refused .badConfiguration := by
  simp [accept, h]

/-- `acceptIf` answers a next state exactly when the operand condition and the configuration hold. -/
theorem acceptIf_eq_next {ok : Bool} {r : Refusal} {s t u : State} :
    acceptIf ok r s t = .next u ↔ ok = true ∧ s.cfg.valid = true ∧ t = u := by
  unfold acceptIf
  cases ok
  · simp only [Bool.false_eq_true, ↓reduceIte, false_and, iff_false]
    split <;> simp
  · simpa using accept_eq_next

/-- R103. -/
theorem resetCounters_eq (b : Bool) (s : State) :
    resetCounters b s = { s with
      ctrl := withReset s.ctrl b
      trace := s.trace ++ [.write s.cfg.idxCtrl (withReset s.ctrl b)] } := rfl

/-- R104. -/
theorem enableIsr_eq (b : Bool) (s : State) :
    enableIsr b s = { s with
      ctrl := withIrqEnable s.ctrl b
      trace := s.trace ++ [.write s.cfg.idxCtrl (withIrqEnable s.ctrl b)] } := rfl

/-- R105. -/
theorem clearIsr_eq (s : State) :
    clearIsr s = { s with trace := s.trace ++ [.write s.cfg.idxCtrl (withIrqClear s.ctrl)] } := rfl

/-- R106, the mode field's own write. -/
theorem writeTuneMode_eq (m : BitVec 2) (s : State) :
    writeTuneMode m s = { s with
      ctrl := withTuneMode s.ctrl m
      trace := s.trace ++ [.write s.cfg.idxCtrl (withTuneMode s.ctrl m)] } := rfl

/-- R130. -/
theorem dacWrite_eq (v : U16) (s : State) :
    dacWrite v s = { s with
      trim := v
      trace := s.trace ++ [.write s.cfg.idxDacLo (dacLow v), .write s.cfg.idxDacHi (dacHigh v)] } := by
  simp [dacWrite, regWrite]

/-- R169. -/
theorem rearm_eq (s : State) :
    rearm s = { s with
      ctrl := withIrqEnable (withReset s.ctrl false) true
      trace := s.trace ++ [.write s.cfg.idxCtrl (withReset s.ctrl false),
        .write s.cfg.idxCtrl (withIrqEnable (withReset s.ctrl false) true)] } := by
  simp [rearm, enableIsr_eq, resetCounters_eq]

/-- The environment after `n` reads. -/
def Environment.answeredN (e : Environment) (n : Nat) : Environment :=
  { e with answers := e.answers.drop n, draws := e.draws + n }

/-- R63: the assembled counter, as a sum. -/
theorem countOfBytes_toNat (b0 b1 b2 b3 : Byte) : (countOfBytes b0 b1 b2 b3).toNat =
    b0.toNat + 256 * b1.toNat + 65536 * b2.toNat + 16777216 * b3.toNat := by
  simp only [countOfBytes, toNat_append_eq]
  omega

/-- R106, R86: the four codes. -/
theorem setTuneMode_disabled (s : State) :
    setTuneMode 0b00 s = resetCounters true (writeTuneMode 0b00 (enableIsr false s)) := rfl

theorem setTuneMode_onePPS (s : State) :
    setTuneMode 0b01 s =
      enableIsr true (resetCounters false (resetCounters true (writeTuneMode 0b01 (enableIsr false s)))) := rfl

theorem setTuneMode_tenMHz (s : State) :
    setTuneMode 0b10 s =
      enableIsr true (resetCounters false (resetCounters true (writeTuneMode 0b10 (enableIsr false s)))) := rfl

theorem setTuneMode_unrecognised (s : State) : setTuneMode 0b11 s = s := rfl

/-- R88: the control bytes a shadow that R22 allows can take. -/
theorem ctrlByte_of_shadow (c : Byte) (h2 : ctrlIrqClear c = false) (h5 : ctrlReserved c = 0) :
    c = ctrlByte (ctrlTuneMode c) (ctrlIrqEnable c) (ctrlReset c) := by
  revert h2 h5
  revert c
  decide

@[simp] theorem withReset_ctrlByte (m : BitVec 2) (e r b : Bool) :
    withReset (ctrlByte m e r) b = ctrlByte m e b := by
  revert m e r b
  decide

@[simp] theorem withIrqEnable_ctrlByte (m : BitVec 2) (e r b : Bool) :
    withIrqEnable (ctrlByte m e r) b = ctrlByte m b r := by
  revert m e r b
  decide

@[simp] theorem withTuneMode_ctrlByte (m n : BitVec 2) (e r : Bool) :
    withTuneMode (ctrlByte m e r) n = ctrlByte n e r := by
  revert m n e r
  decide

@[simp] theorem ctrlTuneMode_ctrlByte (m : BitVec 2) (e r : Bool) : ctrlTuneMode (ctrlByte m e r) = m := by
  revert m e r
  decide

@[simp] theorem ctrlIrqEnable_ctrlByte (m : BitVec 2) (e r : Bool) : ctrlIrqEnable (ctrlByte m e r) = e := by
  revert m e r
  decide

@[simp] theorem ctrlReset_ctrlByte (m : BitVec 2) (e r : Bool) : ctrlReset (ctrlByte m e r) = r := by
  revert m e r
  decide

/-- Setting one field of a shadow that R22 allows, field by field. -/
theorem withReset_of_shadow {c : Byte} (h2 : ctrlIrqClear c = false) (h5 : ctrlReserved c = 0) (b : Bool) :
    withReset c b = ctrlByte (ctrlTuneMode c) (ctrlIrqEnable c) b := by
  conv_lhs => rw [ctrlByte_of_shadow c h2 h5]
  exact withReset_ctrlByte _ _ _ _

theorem withIrqEnable_of_shadow {c : Byte} (h2 : ctrlIrqClear c = false) (h5 : ctrlReserved c = 0) (b : Bool) :
    withIrqEnable c b = ctrlByte (ctrlTuneMode c) b (ctrlReset c) := by
  conv_lhs => rw [ctrlByte_of_shadow c h2 h5]
  exact withIrqEnable_ctrlByte _ _ _ _

/-- `clamp` of R11 lands in its range. -/
theorem clamp_bounds (v lo hi : Int) (h : lo ≤ hi) : lo ≤ clamp v lo hi ∧ clamp v lo hi ≤ hi := by
  unfold clamp
  split
  · omega
  · split <;> omega

/-- A clamped DAC count is held exactly. -/
theorem u16OfInt_clamp (v : Int) (m : Nat) (h : m ≤ 65535) :
    ((u16OfInt (clamp v 0 m)).toNat : Int) = clamp v 0 m := by
  have hb := clamp_bounds v 0 m (by omega)
  simp only [u16OfInt, BitVec.toNat_ofInt]
  omega

/-- A DAC parameter of R7 is held exactly. -/
theorem u16OfNat_toNat (n : Nat) (h : n ≤ 65535) : (u16OfNat n).toNat = n := by
  simp only [u16OfNat, BitVec.toNat_ofNat]
  omega

end Sys2Proof.Machine
end

