-- ==== Sys2Proof/Laws/Blocks.lean ====
section
/-! SUPPORT. What the composite operations do, said once in the vocabulary of Safety.lean: the record update and the
transactions, in order. -/

namespace Sys2Proof.Machine

theorem dacLow_eq (v : U16) : dacLow v = BitVec.ofNat 8 v.toNat := by
  apply BitVec.eq_of_toNat_eq
  simp [dacLow]

theorem dacHigh_eq (v : U16) : dacHigh v = BitVec.ofNat 8 (v.toNat / 256) := by
  apply BitVec.eq_of_toNat_eq
  simp [dacHigh, Nat.shiftRight_eq_div_pow]

/-- R130. -/
theorem dacWrite_spec (v : U16) (s : State) :
    dacWrite v s = { s with trim := v, trace := s.trace ++ dacWrites s.cfg v.toNat } := by
  rw [dacWrite_eq, dacLow_eq, dacHigh_eq]
  rfl

/-- The two writes of a parameter are those of its 16 bits. -/
theorem dacWrites_u16OfNat (c : Config) (n : Nat) : dacWrites c (u16OfNat n).toNat = dacWrites c n := by
  have h : (u16OfNat n).toNat = n % 2 ^ 16 := by simp [u16OfNat]
  have h1 : BitVec.ofNat 8 (u16OfNat n).toNat = BitVec.ofNat 8 n := by
    apply BitVec.eq_of_toNat_eq
    rw [BitVec.toNat_ofNat, BitVec.toNat_ofNat, h]
    omega
  have h2 : BitVec.ofNat 8 ((u16OfNat n).toNat / 256) = BitVec.ofNat 8 (n / 256) := by
    apply BitVec.eq_of_toNat_eq
    rw [BitVec.toNat_ofNat, BitVec.toNat_ofNat, h]
    omega
  rw [dacWrites, dacWrites, h1, h2]

/-- R63: the assembled counter is the two's complement value of its bytes. -/
theorem countOfBytes_toInt (b0 b1 b2 b3 : Byte) : (countOfBytes b0 b1 b2 b3).toInt = leInt32 b0 b1 b2 b3 := by
  have hn := countOfBytes_toNat b0 b1 b2 b3
  have hi := BitVec.toInt_eq_toNat_cond (countOfBytes b0 b1 b2 b3)
  unfold leInt32
  dsimp only
  rw [hi]
  split <;> split <;> omega

/-- R106 for a mode that runs, from a shadow R22 allows. -/
theorem setTuneMode_running {m : BitVec 2} (hm : m = 0b01 ∨ m = 0b10) {s : State} (h : ShadowOk s.ctrl) :
    setTuneMode m s = { s with
      ctrl := ctrlByte m true false
      trace := s.trace ++ [ctrlWrite s.cfg (ctrlByte (ctrlTuneMode s.ctrl) false (ctrlReset s.ctrl)),
        ctrlWrite s.cfg (ctrlByte m false (ctrlReset s.ctrl)), ctrlWrite s.cfg (ctrlByte m false true),
        ctrlWrite s.cfg (ctrlByte m false false), ctrlWrite s.cfg (ctrlByte m true false)] } := by
  rcases hm with rfl | rfl
  · rw [setTuneMode_onePPS]
    simp only [enableIsr_eq, resetCounters_eq, writeTuneMode_eq, List.append_assoc, List.cons_append, List.nil_append,
      ctrlWrite, withIrqEnable_of_shadow h.1 h.2.1, withIrqEnable_ctrlByte, withReset_ctrlByte, withTuneMode_ctrlByte]
  · rw [setTuneMode_tenMHz]
    simp only [enableIsr_eq, resetCounters_eq, writeTuneMode_eq, List.append_assoc, List.cons_append, List.nil_append,
      ctrlWrite, withIrqEnable_of_shadow h.1 h.2.1, withIrqEnable_ctrlByte, withReset_ctrlByte, withTuneMode_ctrlByte]

/-- R106 for Disabled, from a shadow R22 allows. -/
theorem setTuneMode_disabling {s : State} (h : ShadowOk s.ctrl) :
    setTuneMode 0b00 s = { s with
      ctrl := ctrlByte 0b00 false true
      trace := s.trace ++ [ctrlWrite s.cfg (ctrlByte (ctrlTuneMode s.ctrl) false (ctrlReset s.ctrl)),
        ctrlWrite s.cfg (ctrlByte 0b00 false (ctrlReset s.ctrl)), ctrlWrite s.cfg (ctrlByte 0b00 false true)] } := by
  rw [setTuneMode_disabled]
  simp only [enableIsr_eq, resetCounters_eq, writeTuneMode_eq, List.append_assoc, List.cons_append, List.nil_append,
    ctrlWrite, withIrqEnable_of_shadow h.1 h.2.1, withReset_ctrlByte, withTuneMode_ctrlByte]

/-- R169, from a shadow R22 allows. -/
theorem rearm_of_shadow {s : State} (h : ShadowOk s.ctrl) :
    rearm s = { s with
      ctrl := ctrlByte (ctrlTuneMode s.ctrl) true false
      trace := s.trace ++ [ctrlWrite s.cfg (ctrlByte (ctrlTuneMode s.ctrl) (ctrlIrqEnable s.ctrl) false),
        ctrlWrite s.cfg (ctrlByte (ctrlTuneMode s.ctrl) true false)] } := by
  simp only [rearm_eq, withReset_of_shadow h.1 h.2.1, withIrqEnable_ctrlByte, ctrlWrite]

end Sys2Proof.Machine
end

