-- ==== Sys2Proof/Laws/Exec.lean ====
section
/-! SUPPORT. The inversion lemma of exec: when it answers a next state, and which. Later proofs split on the operation through
it and never unfold exec. -/

namespace Sys2Proof.Machine

/-- The state an operation leaves when it completes. -/
def effect : Instr → State → State
  | .regWrite idx data, s => regWrite idx.toNat data s
  | .regRead idx, s => { (regRead idx.toNat s).2 with ret := some (.byte (regRead idx.toNat s).1) }
  | .resetCounters b, s => resetCounters b s
  | .enableIsr b, s => enableIsr b s
  | .clearIsr, s => clearIsr s
  | .setTuneMode m, s => setTuneMode m s
  | .readCount idx, s => { (readCount idx.toNat s).2 with ret := some (.count (readCount idx.toNat s).1) }
  | .dacWrite v, s => dacWrite v s
  | .capture, s => capture s
  | .poll, s => poll s
  | .fsmCoarseMin, s => fsmStep s
  | .fsmCoarseMax, s => fsmStep s
  | .fsmCoarseDone, s => fsmStep s
  | .fsmFineTune, s => fsmStep s
  | .calCompute, s => calCompute s
  | .fineCorrect, s => fineCorrect s
  | .rearm, s => rearm s
  | .tamerInit, s => tamerInit s
  | .tamerDisable, s => tamerDisable s
  | .supervise en, s => supervise en s
  | .tick en, s => tick en s
  | .powerOnReset, s => powerOnReset s

/-- exec answers a next state exactly when the configuration is valid and the operands are those R224 permits. -/
theorem exec_eq_next {i : Instr} {s t : State} :
    exec i s = .next t ↔ s.cfg.valid = true ∧ i.wellFormed s.cfg = true ∧ t = effect i s := by
  cases i
  case readCount idx =>
    simp only [exec, execReadCount, acceptIf_eq_next, Instr.wellFormed, countIndexOk, effect]
    tauto
  case dacWrite v =>
    simp only [exec, execDacWrite, acceptIf_eq_next, Instr.wellFormed, dacOperandOk, effect]
    tauto
  all_goals
    refine accept_eq_next.trans ⟨?_, ?_⟩
    · rintro ⟨h, rfl⟩
      exact ⟨h, rfl, rfl⟩
    · rintro ⟨h, -, rfl⟩
      exact ⟨h, rfl⟩

/-- Under a valid configuration an operation with permitted operands completes. -/
theorem exec_of_valid {i : Instr} {s : State} (hv : s.cfg.valid = true) (hw : i.wellFormed s.cfg = true) :
    exec i s = .next (effect i s) := exec_eq_next.2 ⟨hv, hw, rfl⟩

/-- The four rows of FSM_STEP have one effect (R92). -/
@[simp] theorem effect_fsmRow (ts : TuneState) (s : State) : effect (.fsmRow ts) s = fsmStep s := by
  cases ts <;> rfl

@[simp] theorem wellFormed_fsmRow (ts : TuneState) (c : Config) : (Instr.fsmRow ts).wellFormed c = true := by
  cases ts <;> rfl

/-- exec of any FSM_STEP row. -/
theorem exec_fsmRow {ts : TuneState} {s : State} (hv : s.cfg.valid = true) :
    exec (.fsmRow ts) s = .next (fsmStep s) := by
  rw [exec_of_valid hv (wellFormed_fsmRow ts s.cfg), effect_fsmRow]

theorem gated_eq_false {s : State} : gated s = false ↔ Ungated s := by
  unfold gated Ungated
  cases s.enQ <;> simp

end Sys2Proof.Machine
end

