-- ==== Sys2Proof/Laws/Float.lean ====
section
/-! SUPPORT. The numeric primitives of 00_scope.md R11 in terms of exact values: what rounding gives, when a result is finite,
and that no value of the calibration overflows (10_state.md R28). -/

namespace Sys2Proof.Machine

/-- The quotient rounded by `divRoundEven` is a nearest integer, and of two nearest ones the even one. -/
theorem divRoundEven_spec (a b : Nat) (hb : 0 < b) :
    |(divRoundEven a b : Rat) - (a : Rat) / b| ≤ 1 / 2 ∧
    (|(divRoundEven a b : Rat) - (a : Rat) / b| = 1 / 2 → divRoundEven a b % 2 = 0) := by
  have hbq : (0 : Rat) < b := by exact_mod_cast hb
  have hdm : (b * (a / b) + a % b : Nat) = a := Nat.div_add_mod a b
  have hq : (a : Rat) / b = (a / b : Nat) + (a % b : Nat) / (b : Rat) := by
    field_simp
    exact_mod_cast hdm.symm.trans (by ring)
  have hr : ((a % b : Nat) : Rat) < b := by exact_mod_cast Nat.mod_lt a hb
  have hr0 : (0 : Rat) ≤ ((a % b : Nat) : Rat) := by positivity
  rw [hq]
  generalize hQ : a / b = q at *
  generalize hR : a % b = r at *
  have hf0 : 0 ≤ (r : Rat) / b := by positivity
  have lt_iff : (r : Rat) / b < 1 / 2 ↔ 2 * r < b := by
    rw [div_lt_div_iff₀ hbq (by norm_num)]
    constructor
    · intro h; exact_mod_cast (by linarith : (2 : Rat) * r < b)
    · intro h; have : (2 : Rat) * r < b := by exact_mod_cast h
      linarith
  have gt_iff : 1 / 2 < (r : Rat) / b ↔ b < 2 * r := by
    rw [div_lt_div_iff₀ (by norm_num) hbq]
    constructor
    · intro h; exact_mod_cast (by linarith : (b : Rat) < 2 * r)
    · intro h; have : (b : Rat) < 2 * r := by exact_mod_cast h
      linarith
  have hlt1 : (r : Rat) / b < 1 := by rw [div_lt_one hbq]; exact hr
  unfold divRoundEven
  simp only [hQ, hR]
  split
  · rename_i h
    have := lt_iff.2 h
    rw [abs_sub_comm, add_sub_cancel_left, abs_of_nonneg hf0]
    exact ⟨this.le, fun h => absurd h this.ne⟩
  · split
    · rename_i h
      have := gt_iff.2 h
      push_cast
      rw [show (q : Rat) + 1 - (q + r / b) = 1 - r / b by ring, abs_of_nonneg (by linarith)]
      exact ⟨by linarith, fun h => by linarith⟩
    · rename_i h1 h2
      have e : (r : Rat) / b = 1 / 2 := le_antisymm (not_lt.1 (gt_iff.not.2 h2)) (not_lt.1 (lt_iff.not.2 h1))
      rw [e]
      split
      · rename_i h
        refine ⟨by rw [abs_sub_comm, add_sub_cancel_left]; norm_num, fun _ => h⟩
      · rename_i h
        push_cast
        refine ⟨by rw [show (q : Rat) + 1 - (q + 1 / 2) = 1 / 2 by ring]; norm_num, fun _ => by omega⟩

/-- A power of two with an integer exponent, as a quotient of natural powers. -/
theorem two_zpow_eq (k : Int) : (2 : Rat) ^ k = 2 ^ k.toNat / 2 ^ (-k).toNat := by
  rcases le_total 0 k with h | h
  · obtain ⟨n, rfl⟩ := Int.eq_ofNat_of_zero_le h
    simp
  · obtain ⟨n, hn⟩ := Int.eq_ofNat_of_zero_le (neg_nonneg.2 h)
    obtain rfl : k = -n := by omega
    simp

theorem scale_lt_iff (n d : Nat) (k : Int) :
    n * 2 ^ (-k).toNat < d * 2 ^ k.toNat ↔ (n : Rat) < 2 ^ k * d := by
  rw [two_zpow_eq, div_mul_eq_mul_div, lt_div_iff₀ (by positivity), mul_comm ((2 : Rat) ^ k.toNat)]
  exact_mod_cast Iff.rfl

/-- `floorLog2` brackets the quotient between two powers of two. -/
theorem floorLog2_spec {n d : Nat} (hn : 0 < n) (hd : 0 < d) :
    (2 : Rat) ^ floorLog2 n d * d ≤ n ∧ (n : Rat) < 2 ^ (floorLog2 n d + 1) * d := by
  have n1 : ((2 : Rat)) ^ (Nat.log2 n : Int) ≤ n := by exact_mod_cast Nat.log2_self_le hn.ne'
  have n2 : (n : Rat) < 2 ^ ((Nat.log2 n : Int) + 1) := by exact_mod_cast @Nat.lt_log2_self n
  have d1 : ((2 : Rat)) ^ (Nat.log2 d : Int) ≤ d := by exact_mod_cast Nat.log2_self_le hd.ne'
  have d2 : (d : Rat) < 2 ^ ((Nat.log2 d : Int) + 1) := by exact_mod_cast @Nat.lt_log2_self d
  have lo : (2 : Rat) ^ ((Nat.log2 n : Int) - Nat.log2 d - 1) * d < n := by
    refine lt_of_lt_of_le (mul_lt_mul_of_pos_left d2 (by positivity)) ?_
    rw [← zpow_add₀ two_ne_zero]
    refine le_trans (le_of_eq ?_) n1
    congr 1
    ring
  have hi : (n : Rat) < 2 ^ ((Nat.log2 n : Int) - Nat.log2 d + 1) * d := by
    refine lt_of_lt_of_le n2 ?_
    refine le_trans (le_of_eq ?_) (mul_le_mul_of_nonneg_left d1 (by positivity))
    rw [← zpow_add₀ two_ne_zero]
    congr 1
    ring
  unfold floorLog2
  dsimp only
  split
  · rename_i h
    rw [scale_lt_iff] at h
    exact ⟨lo.le, by rwa [sub_add_cancel]⟩
  · rename_i h
    rw [scale_lt_iff, not_lt] at h
    exact ⟨h, hi⟩

/-- The significand of `n / d` at exponent `e = f32Exponent n d`, before rounding: it has at most 24 bits, and 24 unless the
quotient is in the subnormal range. -/
theorem f32Exponent_spec {n d : Nat} (hn : 0 < n) (hd : 0 < d) :
    (n : Rat) / d / 2 ^ f32Exponent n d < 2 ^ 24 ∧
    (f32Exponent n d = -149 ∨ -149 < f32Exponent n d ∧ 2 ^ 23 ≤ (n : Rat) / d / 2 ^ f32Exponent n d) := by
  obtain ⟨h1, h2⟩ := floorLog2_spec hn hd
  have hdq : (0 : Rat) < d := by exact_mod_cast hd
  replace h1 : (2 : Rat) ^ floorLog2 n d ≤ (n : Rat) / d := (le_div_iff₀ hdq).2 h1
  replace h2 : (n : Rat) / d < 2 ^ (floorLog2 n d + 1) := (div_lt_iff₀ hdq).2 h2
  generalize (n : Rat) / d = x at *
  have up : ∀ k : Int, x < 2 ^ (floorLog2 n d + 1) → floorLog2 n d - 23 ≤ k → x / 2 ^ k < 2 ^ 24 := by
    intro k hx hk
    rw [div_lt_iff₀ (by positivity)]
    refine lt_of_lt_of_le hx ?_
    rw [← zpow_natCast, ← zpow_add₀ two_ne_zero]
    exact zpow_le_zpow_right₀ (by norm_num) (by push_cast; omega)
  unfold f32Exponent
  refine ⟨up _ h2 (le_max_left _ _), ?_⟩
  by_cases hk : floorLog2 n d - 23 ≤ -149
  · left
    exact max_eq_right hk
  · right
    rw [max_eq_left (by omega)]
    refine ⟨by omega, ?_⟩
    rw [le_div_iff₀ (by positivity)]
    refine le_trans (le_of_eq ?_) h1
    rw [← zpow_natCast, ← zpow_add₀ two_ne_zero]
    congr 1
    push_cast
    ring

/-- The value of a magnitude pattern built as `f32Magnitude` builds it: exponent field from `e`, significand `M`. -/
theorem f32Value_of_parts {p : F32} {e : Int} {M : Nat} (he : -149 ≤ e) (hM : M ≤ 2 ^ 24)
    (hN : e = -149 ∨ 2 ^ 23 ≤ M) (hp : p.toNat % 2 ^ 31 = (e + 149).toNat * 2 ^ 23 + M) :
    (f32Num p : Rat) / f32Den p = M * 2 ^ e := by
  have hE : p.expField = p.toNat / 2 ^ 23 % 2 ^ 8 := by
    simp [F32.expField, Nat.shiftRight_eq_div_pow]
  have hF : p.fracField = p.toNat % 2 ^ 23 := by
    simp [F32.fracField]
  have hlt := p.isLt
  obtain ⟨j, rfl⟩ : ∃ j : Nat, e = j - 149 := ⟨(e + 149).toNat, by omega⟩
  rw [show ((j : Int) - 149 + 149).toNat = j by omega] at hp
  have pow : ∀ a b : Nat, ((2 : Rat) ^ a / 2 ^ b) = 2 ^ ((a : Int) - b) := by
    intro a b
    rw [zpow_sub₀ two_ne_zero]
    rfl
  unfold f32Num f32Den f32Significand
  rw [hE, hF]
  generalize hEv : p.toNat / 2 ^ 23 % 2 ^ 8 = E
  generalize hFv : p.toNat % 2 ^ 23 = F
  have hsum : E * 2 ^ 23 + F = j * 2 ^ 23 + M := by omega
  have hFlt : F < 2 ^ 23 := by omega
  push_cast
  rw [mul_div_assoc, pow, show ((max E 1 - 150 : Nat) : Int) - ((150 - max E 1 : Nat) : Int) = max (E : Int) 1 - 150 by omega]
  by_cases h0 : E = 0
  · obtain rfl : j = 0 := by omega
    obtain rfl : F = M := by omega
    subst h0
    norm_num
  · rw [if_neg h0, max_eq_left (by omega)]
    by_cases h24 : M = 2 ^ 24
    · obtain rfl : E = j + 2 := by omega
      obtain rfl : F = 0 := by omega
      subst h24
      push_cast
      rw [show (j : Int) + 2 - 150 = (j - 149) + 1 by ring, zpow_add_one₀ two_ne_zero]
      norm_num
      ring
    · by_cases h23 : 2 ^ 23 ≤ M
      · obtain rfl : E = j + 1 := by omega
        obtain rfl : M = 2 ^ 23 + F := by omega
        push_cast
        rw [show (j : Int) + 1 - 150 = j - 149 by ring]
      · omega

/-- Of `n / d` with `n, d > 0`: the bits `f32Magnitude` gives, when they are finite, stand for a multiple `M` of the last
place `2 ^ f32Exponent n d` nearest to it, and `M` is even when two are equally near. -/
theorem f32Magnitude_spec {n d : Nat} (hn : 0 < n) (hd : 0 < d) : ∃ M : Nat,
    f32Magnitude n d = min ((f32Exponent n d + 149).toNat * 2 ^ 23 + M) 0x7F800000 ∧ M ≤ 2 ^ 24 ∧
    (f32Exponent n d = -149 ∨ 2 ^ 23 ≤ M) ∧
    |(M : Rat) - (n : Rat) / d / 2 ^ f32Exponent n d| ≤ 1 / 2 ∧
    (|(M : Rat) - (n : Rat) / d / 2 ^ f32Exponent n d| = 1 / 2 → M % 2 = 0) := by
  obtain ⟨h1, h2⟩ := f32Exponent_spec hn hd
  have hd' : 0 < d * 2 ^ (f32Exponent n d).toNat := by positivity
  obtain ⟨r1, r2⟩ := divRoundEven_spec (n * 2 ^ (-f32Exponent n d).toNat) (d * 2 ^ (f32Exponent n d).toNat) hd'
  have hq : ((n * 2 ^ (-f32Exponent n d).toNat : Nat) : Rat) / ((d * 2 ^ (f32Exponent n d).toNat : Nat) : Rat) =
      (n : Rat) / d / 2 ^ f32Exponent n d := by
    rw [two_zpow_eq]
    push_cast
    field_simp
  rw [hq] at r1 r2
  refine ⟨_, by rw [f32Magnitude, if_neg hn.ne'], ?_, ?_, r1, r2⟩
  · have := (abs_le.1 r1).2
    have : ((divRoundEven (n * 2 ^ (-f32Exponent n d).toNat) (d * 2 ^ (f32Exponent n d).toNat) : Nat) : Rat) < (2 ^ 24 + 1 : Nat) := by
      push_cast
      linarith
    exact Nat.lt_succ_iff.1 (by exact_mod_cast this)
  · rcases h2 with h2 | ⟨-, h2⟩
    · exact .inl h2
    · right
      have := (abs_le.1 r1).1
      have : ((2 ^ 23 : Nat) : Rat) < ((divRoundEven (n * 2 ^ (-f32Exponent n d).toNat) (d * 2 ^ (f32Exponent n d).toNat) + 1 : Nat) : Rat) := by
        push_cast
        linarith
      exact Nat.lt_succ_iff.1 (by exact_mod_cast this)

theorem f32Magnitude_le (n d : Nat) : f32Magnitude n d ≤ 0x7F800000 := by
  unfold f32Magnitude
  split
  · omega
  · exact min_le_right _ _

theorem f32OfRatio_toNat (neg : Bool) (n d : Nat) :
    (f32OfRatio neg n d).toNat = (if neg then 2 ^ 31 else 0) + f32Magnitude n d := by
  have := f32Magnitude_le n d
  rw [f32OfRatio, BitVec.toNat_ofNat]
  cases neg <;> simp <;> omega

theorem f32OfRatio_sign (neg : Bool) (n d : Nat) : F32.sign (f32OfRatio neg n d) = neg := by
  have h := f32OfRatio_toNat neg n d
  have := f32Magnitude_le n d
  have e : ∀ x : F32, F32.sign x = decide (2 ^ 31 ≤ x.toNat) := by
    intro x
    exact BitVec.msb_eq_decide x
  rw [e, h]
  cases neg
  · simp
    omega
  · simp

theorem f32OfRatio_finite (neg : Bool) (n d : Nat) :
    F32.isFinite (f32OfRatio neg n d) = true ↔ f32Magnitude n d < 0x7F800000 := by
  have h := f32OfRatio_toNat neg n d
  have hl := f32Magnitude_le n d
  have hE : F32.expField (f32OfRatio neg n d) = (f32OfRatio neg n d).toNat / 2 ^ 23 % 2 ^ 8 := by
    simp [F32.expField, Nat.shiftRight_eq_div_pow]
  rw [F32.isFinite, hE, h]
  cases neg <;> simp <;> omega

/-- A quotient below 2 ^ 127 does not overflow. -/
theorem f32Magnitude_finite {n d : Nat} (hd : 0 < d) (h : (n : Rat) / d < 2 ^ 127) : f32Magnitude n d < 0x7F800000 := by
  rcases Nat.eq_zero_or_pos n with rfl | hn
  · simp [f32Magnitude]
  obtain ⟨M, hm, hM, -⟩ := f32Magnitude_spec hn hd
  obtain ⟨h1, h2⟩ := floorLog2_spec hn hd
  have hdq : (0 : Rat) < d := by exact_mod_cast hd
  have hk : floorLog2 n d < 127 := by
    replace h1 : (2 : Rat) ^ floorLog2 n d ≤ (n : Rat) / d := (le_div_iff₀ hdq).2 h1
    have := lt_of_le_of_lt h1 h
    rw [← zpow_natCast] at this
    exact_mod_cast (zpow_lt_zpow_iff_right₀ (by norm_num)).1 this
  have he : f32Exponent n d ≤ 103 := by
    unfold f32Exponent
    omega
  have he' : -149 ≤ f32Exponent n d := le_max_right _ _
  omega

/-- A quotient overflows exactly from the midpoint of the largest finite value and 2 ^ 128 on. -/
theorem f32Magnitude_finite_iff {n d : Nat} (hd : 0 < d) :
    f32Magnitude n d < 0x7F800000 ↔ (n : Rat) / d < 2 ^ 128 - 2 ^ 103 := by
  rcases Nat.eq_zero_or_pos n with rfl | hn
  · simp [f32Magnitude]
    norm_num
  obtain ⟨M, hm, hM, hN, hr, ht⟩ := f32Magnitude_spec hn hd
  obtain ⟨h1, h2⟩ := floorLog2_spec hn hd
  have hdq : (0 : Rat) < d := by exact_mod_cast hd
  replace h1 : (2 : Rat) ^ floorLog2 n d ≤ (n : Rat) / d := (le_div_iff₀ hdq).2 h1
  replace h2 : (n : Rat) / d < 2 ^ (floorLog2 n d + 1) := (div_lt_iff₀ hdq).2 h2
  rcases lt_trichotomy (floorLog2 n d) 127 with hk | hk | hk
  · have h : (n : Rat) / d < 2 ^ 127 := by
      refine lt_of_lt_of_le h2 ?_
      rw [← zpow_natCast]
      exact zpow_le_zpow_right₀ (by norm_num) (by push_cast; omega)
    exact ⟨fun _ => h.trans (by norm_num), fun _ => f32Magnitude_finite hd h⟩
  · have he : f32Exponent n d = 104 := by unfold f32Exponent; omega
    rw [he] at hm hr ht
    have hq : (n : Rat) / d = (n : Rat) / d / 2 ^ (104 : Int) * 2 ^ 104 := by field_simp
    have hlt : f32Magnitude n d < 0x7F800000 ↔ M < 2 ^ 24 := by rw [hm]; omega
    rw [hlt, hq]
    generalize (n : Rat) / d / 2 ^ (104 : Int) = x at *
    constructor
    · intro h
      have hM' : (M : Rat) ≤ 2 ^ 24 - 1 := by
        have : ((M + 1 : Nat) : Rat) ≤ (2 ^ 24 : Nat) := by exact_mod_cast h
        push_cast at this
        linarith
      have hx : x < 2 ^ 24 - 1 / 2 := by
        refine lt_of_le_of_ne (by have := (abs_le.1 hr).1; linarith) fun hx => ?_
        have hMe : (M : Rat) = 2 ^ 24 - 1 := le_antisymm hM' (by have := (abs_le.1 hr).1; linarith)
        have hMn : M = 2 ^ 24 - 1 := by
          have : (M : Rat) = ((2 ^ 24 - 1 : Nat) : Rat) := by rw [hMe]; norm_num
          exact_mod_cast this
        have := ht (by rw [hMe, hx]; norm_num)
        omega
      linarith
    · intro h
      by_contra hc
      have hMq : (2 : Rat) ^ 24 ≤ M := by exact_mod_cast not_lt.1 hc
      have := (abs_le.1 hr).2
      linarith
  · have he : 105 ≤ f32Exponent n d := by unfold f32Exponent; omega
    have hbig : (2 : Rat) ^ 128 ≤ (n : Rat) / d := by
      refine le_trans ?_ h1
      rw [← zpow_natCast]
      exact zpow_le_zpow_right₀ (by norm_num) (by push_cast; omega)
    refine ⟨fun h => ?_, fun h => absurd (hbig.trans_lt h) (by norm_num)⟩
    rw [hm] at h
    rcases hN with hN | hN <;> omega

/-- The value of a finite rounded quotient. -/
theorem f32OfRatio_value (neg : Bool) {n d : Nat} (hn : 0 < n) (hd : 0 < d) (h : f32Magnitude n d < 0x7F800000) :
    ∃ M : Nat, (f32Num (f32OfRatio neg n d) : Rat) / f32Den (f32OfRatio neg n d) = M * 2 ^ f32Exponent n d ∧
    M ≤ 2 ^ 24 ∧ (f32Exponent n d = -149 ∨ 2 ^ 23 ≤ M) ∧ (f32OfRatio neg n d).getLsbD 0 = decide (M % 2 = 1) ∧
    |(M : Rat) - (n : Rat) / d / 2 ^ f32Exponent n d| ≤ 1 / 2 ∧
    (|(M : Rat) - (n : Rat) / d / 2 ^ f32Exponent n d| = 1 / 2 → M % 2 = 0) := by
  obtain ⟨M, h1, h2, h3, h4, h5⟩ := f32Magnitude_spec hn hd
  have he : -149 ≤ f32Exponent n d := le_max_right _ _
  have ht := f32OfRatio_toNat neg n d
  have h1' : f32Magnitude n d = (f32Exponent n d + 149).toNat * 2 ^ 23 + M := by omega
  refine ⟨M, f32Value_of_parts he h2 h3 ?_, h2, h3, ?_, h4, h5⟩
  · rw [ht, h1']
    cases neg <;> simp <;> omega
  · rw [← BitVec.testBit_toNat, ht, h1', Nat.testBit_zero]
    cases neg <;> simp <;> omega

theorem f32Den_pos (x : F32) : 0 < f32Den x := by unfold f32Den; positivity

/-- A quotient below a power of two is rounded to a value not above it. -/
theorem f32OfRatio_le (neg : Bool) {n d j : Nat} (hd : 0 < d) (hj : j ≤ 126) (h : (n : Rat) / d < 2 ^ j) :
    (f32Num (f32OfRatio neg n d) : Rat) / f32Den (f32OfRatio neg n d) ≤ 2 ^ j := by
  rcases Nat.eq_zero_or_pos n with rfl | hn
  · have : f32Num (f32OfRatio neg 0 d) = 0 := by
      simp only [f32OfRatio, f32Magnitude, if_pos]
      cases neg <;> decide
    rw [this]
    simp
  have hfin : f32Magnitude n d < 0x7F800000 := f32Magnitude_finite hd (lt_of_lt_of_le h (pow_le_pow_right₀ (by norm_num) (by omega)))
  obtain ⟨M, hv, hM, -⟩ := f32OfRatio_value neg hn hd hfin
  obtain ⟨h1, h2⟩ := floorLog2_spec hn hd
  have hdq : (0 : Rat) < d := by exact_mod_cast hd
  have hk : floorLog2 n d < j := by
    replace h1 : (2 : Rat) ^ floorLog2 n d ≤ (n : Rat) / d := (le_div_iff₀ hdq).2 h1
    have := lt_of_le_of_lt h1 h
    rw [← zpow_natCast] at this
    exact_mod_cast (zpow_lt_zpow_iff_right₀ (by norm_num)).1 this
  rw [hv]
  have hMq : (M : Rat) ≤ 2 ^ (24 : Int) := by exact_mod_cast hM
  calc (M : Rat) * 2 ^ f32Exponent n d ≤ 2 ^ (24 : Int) * 2 ^ f32Exponent n d := mul_le_mul_of_nonneg_right hMq (by positivity)
    _ = 2 ^ (24 + f32Exponent n d) := (zpow_add₀ two_ne_zero _ _).symm
    _ ≤ 2 ^ (j : Int) := zpow_le_zpow_right₀ (by norm_num) (by unfold f32Exponent; omega)
    _ = 2 ^ j := zpow_natCast _ _

/-- A non-zero integer is converted to a value of magnitude at least 1. -/
theorem toF32_ge_one {n : Int} (hn : n ≠ 0) (h : n.natAbs < 2 ^ 126) :
    (f32Den (toF32 n) : Rat) ≤ f32Num (toF32 n) := by
  have hpos : 0 < n.natAbs := Int.natAbs_pos.2 hn
  have hfin : f32Magnitude n.natAbs 1 < 0x7F800000 := by
    apply f32Magnitude_finite (by omega)
    have : (n.natAbs : Rat) < 2 ^ 126 := by exact_mod_cast h
    norm_num at this ⊢
    linarith
  obtain ⟨M, hv, hM, hN, -⟩ := f32OfRatio_value (decide (n < 0)) hpos one_pos hfin
  obtain ⟨-, h2⟩ := floorLog2_spec hpos one_pos
  have hk : 0 ≤ floorLog2 n.natAbs 1 := by
    have h1 : (1 : Rat) ≤ n.natAbs := by exact_mod_cast hpos
    have : (2 : Rat) ^ (0 : Int) < 2 ^ (floorLog2 n.natAbs 1 + 1) := by
      have := lt_of_le_of_lt h1 h2
      simpa using this
    have := (zpow_lt_zpow_iff_right₀ (by norm_num)).1 this
    omega
  have he : f32Exponent n.natAbs 1 = floorLog2 n.natAbs 1 - 23 := max_eq_left (by omega)
  have hM' : (2 : Rat) ^ (23 : Int) ≤ M := by
    rcases hN with hN | hN
    · omega
    · exact_mod_cast hN
  have hden : (0 : Rat) < f32Den (toF32 n) := by exact_mod_cast f32Den_pos _
  rw [← one_le_div hden]
  show 1 ≤ (f32Num (f32OfRatio _ _ _) : Rat) / f32Den (f32OfRatio _ _ _)
  rw [hv]
  calc (1 : Rat) = 2 ^ (0 : Int) := by norm_num
    _ ≤ 2 ^ ((23 : Int) + f32Exponent n.natAbs 1) := zpow_le_zpow_right₀ (by norm_num) (by omega)
    _ = 2 ^ (23 : Int) * 2 ^ f32Exponent n.natAbs 1 := zpow_add₀ two_ne_zero _ _
    _ ≤ M * 2 ^ f32Exponent n.natAbs 1 := mul_le_mul_of_nonneg_right hM' (by positivity)

theorem toF32_finite {n : Int} (h : n.natAbs < 2 ^ 126) : F32.isFinite (toF32 n) = true := by
  rw [toF32, f32OfRatio_finite]
  apply f32Magnitude_finite (by omega)
  have : (n.natAbs : Rat) < 2 ^ 126 := by exact_mod_cast h
  norm_num at this ⊢
  linarith

theorem toF32_le {n : Int} {j : Nat} (hj : j ≤ 126) (h : n.natAbs < 2 ^ j) :
    (f32Num (toF32 n) : Rat) / f32Den (toF32 n) ≤ 2 ^ j := by
  apply f32OfRatio_le _ (by omega) hj
  have : (n.natAbs : Rat) < 2 ^ j := by exact_mod_cast h
  simpa using this

/-- R28: the slope through two points with different x-coordinates is finite, of magnitude at most 2 ^ 17. -/
theorem lineSlope_finite {x0 x1 : I32} (y0 y1 : U16) (h : x1 ≠ x0) :
    F32.isFinite (lineSlope x0 y0 x1 y1) = true ∧
      (f32Num (lineSlope x0 y0 x1 y1) : Rat) / f32Den (lineSlope x0 y0 x1 y1) ≤ 2 ^ 17 := by
  have hdx : x1.toInt - x0.toInt ≠ 0 := fun h0 => h (BitVec.eq_of_toInt_eq (by omega))
  have b0 := BitVec.toInt_lt (x := x0)
  have b1 := BitVec.toInt_lt (x := x1)
  have c0 := BitVec.le_toInt (x := x0)
  have c1 := BitVec.le_toInt (x := x1)
  have d0 := y0.isLt
  have d1 := y1.isLt
  have hx : (x1.toInt - x0.toInt).natAbs < 2 ^ 126 := by omega
  have hy : ((y1.toNat : Int) - y0.toNat).natAbs < 2 ^ 16 := by omega
  have one := toF32_ge_one hdx hx
  have fx := toF32_finite hx
  have fy : F32.isFinite (toF32 ((y1.toNat : Int) - y0.toNat)) = true := toF32_finite (by omega)
  have up := toF32_le (by omega) hy
  unfold lineSlope
  generalize toF32 ((y1.toNat : Int) - y0.toNat) = a at *
  generalize toF32 (x1.toInt - x0.toInt) = b at *
  have hb := f32Den_pos b
  have ha := f32Den_pos a
  have hbn : 0 < f32Num b := by
    have : f32Den b ≤ f32Num b := by exact_mod_cast one
    omega
  have hq : ((f32Num a * f32Den b : Nat) : Rat) / ((f32Den a * f32Num b : Nat) : Rat) < 2 ^ 17 := by
    have ha' : (0 : Rat) < f32Den a := by exact_mod_cast ha
    have hb' : (0 : Rat) < f32Num b := by exact_mod_cast hbn
    push_cast
    rw [mul_div_mul_comm]
    have h1 : (f32Den b : Rat) / f32Num b ≤ 1 := (div_le_one hb').2 one
    calc (f32Num a : Rat) / f32Den a * (f32Den b / f32Num b) ≤ 2 ^ 16 * 1 :=
          mul_le_mul up h1 (div_nonneg (Nat.cast_nonneg _) (Nat.cast_nonneg _)) (by norm_num)
      _ < 2 ^ 17 := by norm_num
  have hd : 0 < f32Den a * f32Num b := Nat.mul_pos ha hbn
  rw [f32Div, fy, fx]
  simp only [Bool.true_and, bne_iff_ne, ne_eq, hbn.ne', not_false_eq_true, if_true]
  exact ⟨(f32OfRatio_finite _ _ _).2 (f32Magnitude_finite hd (lt_of_lt_of_le hq (by norm_num))), f32OfRatio_le _ hd (by omega) hq⟩

/-- Products with an error count stay finite. -/
theorem f32Mul_toF32_finite {m : F32} (n : I32) (hm : F32.isFinite m = true)
    (hv : (f32Num m : Rat) / f32Den m ≤ 2 ^ 17) :
    F32.isFinite (f32Mul m (toF32 n.toInt)) = true ∧ F32.isFinite (f32Mul (toF32 n.toInt) m) = true := by
  have b0 := BitVec.toInt_lt (x := n)
  have c0 := BitVec.le_toInt (x := n)
  have hn : n.toInt.natAbs < 2 ^ 32 := by omega
  have fn := toF32_finite (n := n.toInt) (by omega)
  have up := toF32_le (n := n.toInt) (by omega) hn
  generalize toF32 n.toInt = b at *
  have hb := f32Den_pos b
  have ha := f32Den_pos m
  have key : (f32Num m : Rat) / f32Den m * (f32Num b / f32Den b) < 2 ^ 127 := by
    calc (f32Num m : Rat) / f32Den m * (f32Num b / f32Den b) ≤ 2 ^ 17 * 2 ^ 32 :=
          mul_le_mul hv up (div_nonneg (Nat.cast_nonneg _) (Nat.cast_nonneg _)) (by norm_num)
      _ < 2 ^ 127 := by norm_num
  constructor
  · rw [f32Mul, hm, fn]
    refine (f32OfRatio_finite _ _ _).2 (f32Magnitude_finite (Nat.mul_pos (f32Den_pos _) (f32Den_pos _)) ?_)
    push_cast
    rw [mul_div_mul_comm]
    exact key
  · rw [f32Mul, hm, fn]
    refine (f32OfRatio_finite _ _ _).2 (f32Magnitude_finite (Nat.mul_pos (f32Den_pos _) (f32Den_pos _)) ?_)
    push_cast
    rw [mul_div_mul_comm, mul_comm]
    exact key

end Sys2Proof.Machine
end

