-- ==== Sys2Proof/Laws/Trace.lean ====
section
/-! SUPPORT. What an operation does on the bus: the transactions it appends to the trace and the answers it takes from the
environment (10_state.md R35, 20_memory.md R69, R75). Composite operations compose by `Performs.trans`. -/

namespace Sys2Proof.Machine

/-- From `s` to `t` the transactions `l` were performed: appended to the trace, the bytes read taken from the named answers in
order while there are any (R35, R69, R75); the configuration and the rest of the environment are as before. -/
def Performs (s t : State) (l : List Txn) : Prop :=
  t.trace = s.trace ++ l ∧ t.cfg = s.cfg ∧ t.env = s.env.answeredN (readBytes l).length ∧
    (readBytes l).take s.env.answers.length = s.env.answers.take (readBytes l).length

theorem readBytes_append (l m : List Txn) : readBytes (l ++ m) = readBytes l ++ readBytes m := List.filterMap_append

theorem Performs.refl (s : State) : Performs s s [] := by
  simp [Performs, readBytes, Environment.answeredN]

theorem take_append_eq {α : Type} (p q a : List α) (hp : p.take a.length = a.take p.length)
    (hq : q.take (a.drop p.length).length = (a.drop p.length).take q.length) :
    (p ++ q).take a.length = a.take (p.length + q.length) := by
  rw [List.take_append, hp, List.take_add, ← hq, List.length_drop]

theorem Performs.trans {s t u : State} {l m : List Txn} (h : Performs s t l) (k : Performs t u m) :
    Performs s u (l ++ m) := by
  obtain ⟨h1, h2, h3, h4⟩ := h
  obtain ⟨k1, k2, k3, k4⟩ := k
  refine ⟨by rw [k1, h1, List.append_assoc], k2.trans h2, ?_, ?_⟩
  · rw [k3, h3, readBytes_append]
    simp [Environment.answeredN, List.drop_drop, Nat.add_assoc]
  · rw [h3] at k4
    rw [readBytes_append, List.length_append]
    exact take_append_eq _ _ _ h4 k4

theorem regWrite_performs (idx : Nat) (b : Byte) (s : State) : Performs s (regWrite idx b s) [.write idx b] := by
  simp [Performs, readBytes, Environment.answeredN]

theorem regRead_performs (idx : Nat) (s : State) :
    Performs s (regRead idx s).2 [.read idx (regRead idx s).1] := by
  refine ⟨rfl, rfl, ?_, ?_⟩
  · simp [readBytes, regRead, Environment.answered, Environment.answeredN]
  · cases h : s.env.answers with
    | nil => simp [readBytes]
    | cons b rest => simp [readBytes, regRead_fst_of_answers h]

/-- R107: four reads in ascending index; the count is assembled from the bytes the trace records. -/
theorem readCount_spec (idx : Nat) (s : State) :
    ∃ b0 b1 b2 b3 : Byte, readCount idx s = (countOfBytes b0 b1 b2 b3,
      { s with trace := s.trace ++ countReads idx b0 b1 b2 b3, env := s.env.answeredN 4 }) ∧
      Performs s (readCount idx s).2 (countReads idx b0 b1 b2 b3) := by
  have h0 := regRead_performs idx s
  have h1 := regRead_performs (idx + 1) (regRead idx s).2
  have h2 := regRead_performs (idx + 2) (regRead (idx + 1) (regRead idx s).2).2
  have h3 := regRead_performs (idx + 3) (regRead (idx + 2) (regRead (idx + 1) (regRead idx s).2).2).2
  refine ⟨_, _, _, _, ?_, ((h0.trans h1).trans h2).trans h3⟩
  simp [readCount, regRead, countReads, Environment.answered, Environment.answeredN, ← List.drop_one, List.drop_drop]

/-- R141: CAPTURE's sixteen transactions, and the record from the bytes they read. -/
theorem capture_spec (s : State) :
    ∃ (a0 a1 a2 a3 b0 b1 b2 b3 c0 c1 c2 c3 st : Byte) (l : List Txn),
      l = [ctrlWrite s.cfg (withIrqEnable s.ctrl false), ctrlWrite s.cfg (withReset (withIrqEnable s.ctrl false) true)] ++
        countReads s.cfg.idxErr1s a0 a1 a2 a3 ++ countReads s.cfg.idxErr10s b0 b1 b2 b3 ++
        countReads s.cfg.idxErr100s c0 c1 c2 c3 ++
        [.read s.cfg.idxStat st, ctrlWrite s.cfg (withIrqClear (withReset (withIrqEnable s.ctrl false) true))] ∧
      capture s = { s with
        ctrl := withReset (withIrqEnable s.ctrl false) true
        e1 := countOfBytes a0 a1 a2 a3
        e10 := countOfBytes b0 b1 b2 b3
        e100 := countOfBytes c0 c1 c2 c3
        f1 := st.getLsbD s.cfg.statBit1s
        f10 := st.getLsbD s.cfg.statBit10s
        f100 := st.getLsbD s.cfg.statBit100s
        ready := true
        trace := s.trace ++ l
        env := s.env.answeredN 13 } ∧
      Performs s (capture s) l := by
  have hf : Performs s (freezeCounters s) ([ctrlWrite s.cfg (withIrqEnable s.ctrl false)] ++ [ctrlWrite s.cfg (withReset (withIrqEnable s.ctrl false) true)]) := (regWrite_performs _ _ _).trans (regWrite_performs _ _ _)
  obtain ⟨a0, a1, a2, a3, ha, pa⟩ := readCount_spec s.cfg.idxErr1s (freezeCounters s)
  let c1 := readCount s.cfg.idxErr1s (freezeCounters s)
  obtain ⟨b0, b1, b2, b3, hb, pb⟩ := readCount_spec s.cfg.idxErr10s { c1.2 with e1 := c1.1 }
  let c10 := readCount s.cfg.idxErr10s { c1.2 with e1 := c1.1 }
  obtain ⟨c0, c1', c2, c3, hc, pc⟩ := readCount_spec s.cfg.idxErr100s { c10.2 with e10 := c10.1 }
  have hr : readCounters (freezeCounters s) = { freezeCounters s with
      e1 := countOfBytes a0 a1 a2 a3
      e10 := countOfBytes b0 b1 b2 b3
      e100 := countOfBytes c0 c1' c2 c3
      trace := (freezeCounters s).trace ++ countReads s.cfg.idxErr1s a0 a1 a2 a3 ++
        countReads s.cfg.idxErr10s b0 b1 b2 b3 ++ countReads s.cfg.idxErr100s c0 c1' c2 c3
      env := s.env.answeredN 12 } := by
    simp only [c10, c1, ha] at hb hc
    simp only [hb] at hc
    simp only [readCounters, freezeCounters, enableIsr_eq, resetCounters_eq] at *
    simp only [ha, hb, hc]
    simp [Environment.answeredN, List.drop_drop]
  have pr : Performs (freezeCounters s) (readCounters (freezeCounters s)) _ := (Performs.trans pa pb).trans pc
  have ps := regRead_performs s.cfg.idxStat (readCounters (freezeCounters s))
  obtain ⟨st, hst⟩ : ∃ st, (regRead s.cfg.idxStat (readCounters (freezeCounters s))).1 = st := ⟨_, rfl⟩
  have hs : regRead s.cfg.idxStat (readCounters (freezeCounters s)) = (st, { readCounters (freezeCounters s) with
      trace := (readCounters (freezeCounters s)).trace ++ [.read s.cfg.idxStat st]
      env := (readCounters (freezeCounters s)).env.answered }) := by
    rw [← hst]
    rfl
  rw [hst] at ps
  have pw : Performs (readFlags (readCounters (freezeCounters s))) (capture s)
      [ctrlWrite s.cfg (withIrqClear (withReset (withIrqEnable s.ctrl false) true))] := by
    have := regWrite_performs s.cfg.idxCtrl (withIrqClear (withReset (withIrqEnable s.ctrl false) true)) (readFlags (readCounters (freezeCounters s)))
    exact this
  refine ⟨a0, a1, a2, a3, b0, b1, b2, b3, c0, c1', c2, c3, st, _, rfl, ?_, ?_⟩
  · have hc0 : (readCounters (freezeCounters s)).cfg = s.cfg := by rw [hr]; rfl
    simp only [capture, readFlags, statFlag, hc0, hs]
    simp only [hr]
    simp only [clearIsr_eq, freezeCounters, enableIsr_eq, resetCounters_eq, ctrlWrite]
    simp [Environment.answered, Environment.answeredN, ← List.drop_one, List.drop_drop]
  · have := ((Performs.trans hf pr).trans ps).trans (Performs.trans (l := []) (.refl _) pw)
    convert this using 1
    simp

theorem dacWrite_performs (v : U16) (s : State) : Performs s (dacWrite v s) (dacWrites s.cfg v.toNat) := by
  rw [dacWrite_spec]
  simp [Performs, readBytes, dacWrites, Environment.answeredN]

theorem setTuneMode_performs (m : BitVec 2) (s : State) : ∃ bs : List Byte,
    Performs s (setTuneMode m s) (bs.map (ctrlWrite s.cfg)) ∧
      bs.length = if m = 0b11 then 0 else if m = 0b00 then 3 else 5 := by
  have hm : m = 0 ∨ m = 1 ∨ m = 2 ∨ m = 3 := by revert m; decide
  have w := fun b (s : State) => regWrite_performs s.cfg.idxCtrl b s
  rcases hm with rfl | rfl | rfl | rfl
  · exact ⟨[_, _, _], ((w _ _).trans (w _ _)).trans (w _ _), rfl⟩
  · exact ⟨[_, _, _, _, _], ((((w _ _).trans (w _ _)).trans (w _ _)).trans (w _ _)).trans (w _ _), rfl⟩
  · exact ⟨[_, _, _, _, _], ((((w _ _).trans (w _ _)).trans (w _ _)).trans (w _ _)).trans (w _ _), rfl⟩
  · exact ⟨[], .refl _, rfl⟩

theorem rearm_performs (s : State) : Performs s (rearm s)
    [ctrlWrite s.cfg (withReset s.ctrl false), ctrlWrite s.cfg (withIrqEnable (withReset s.ctrl false) true)] := by
  rw [rearm_eq]
  simp [Performs, readBytes, ctrlWrite, Environment.answeredN]

end Sys2Proof.Machine
end

