-- ==== Sys2Proof/Laws/Frames.lean ====
section
/-! SUPPORT. Which fields a composite operation may change, said once per operation as one record update; later proofs cite
these and never unfold the operation. -/

namespace Sys2Proof.Machine

/-- R164: the clamped intercept lies in the DAC's range. -/
theorem lineIntercept_le {dacMax : Nat} (h : dacMax ≤ 65535) (m : F32) (x0 : I32) (y0 : U16) :
    (lineIntercept dacMax m x0 y0).toNat ≤ dacMax := by
  have h1 := u16OfInt_clamp ((y0.toNat : Int) - roundF32 (f32Mul m (toF32 x0.toInt))) dacMax h
  have h2 := clamp_bounds ((y0.toNat : Int) - roundF32 (f32Mul m (toF32 x0.toInt))) 0 dacMax (by omega)
  unfold lineIntercept
  omega

/-- R164, R165: CAL_COMPUTE writes only the slope and the intercept, the slope only for different x-coordinates. -/
theorem calCompute_eq (s : State) : ∃ (m : F32) (y : U16), calCompute s = { s with slope := m, yint := y } ∧
    (s.cfg.valid = true → y.toNat ≤ s.cfg.dacMax) ∧ (s.x1 = s.x0 → m = s.slope) ∧
    (s.x1 ≠ s.x0 → m = lineSlope s.x0 s.y0 s.x1 s.y1) := by
  unfold calCompute
  split
  · rename_i h
    refine ⟨s.slope, _, rfl, fun hv => ?_, fun _ => rfl, fun hn => absurd h hn⟩
    obtain ⟨-, h1, -, -, -, h2⟩ := Config.dac_of_valid hv
    rw [u16OfNat_toNat _ (by omega)]
    exact h2
  · rename_i h
    exact ⟨_, _, rfl, fun hv => lineIntercept_le (Config.dac_of_valid hv).2.1 _ _ _, fun hn => absurd hn h,
      fun _ => rfl⟩

/-- R167, R168: no flag, no correction; otherwise one DAC write of a value in range. -/
theorem fineCorrect_cases (s : State) :
    (s.f1 = false ∧ s.f10 = false ∧ s.f100 = false ∧ fineCorrect s = s) ∨
    ((s.f1 = true ∨ s.f10 = true ∨ s.f100 = true) ∧ ∃ v : U16, fineCorrect s = dacWrite v s ∧
      (s.cfg.dacMax ≤ 65535 → v.toNat ≤ s.cfg.dacMax)) := by
  have key : ∀ x : Int, s.cfg.dacMax ≤ 65535 → (u16OfInt (clamp x 0 s.cfg.dacMax)).toNat ≤ s.cfg.dacMax := by
    intro x h
    have h1 := u16OfInt_clamp x s.cfg.dacMax h
    have h2 := clamp_bounds x 0 s.cfg.dacMax (by omega)
    omega
  unfold fineCorrect selectedEpoch
  cases s.f1 <;> cases s.f10 <;> cases s.f100 <;> simp <;> exact ⟨_, rfl, key _⟩

theorem fineCorrect_frame (s : State) : ∃ (v : U16) (tr : List Txn),
    fineCorrect s = { s with trim := v, trace := tr } := by
  rcases fineCorrect_cases s with ⟨-, -, -, h⟩ | ⟨-, v, h, -⟩ <;> rw [h]
  · exact ⟨_, _, rfl⟩
  · exact ⟨_, _, rfl⟩

theorem setTuneMode_frame (m : BitVec 2) (s : State) : ∃ (c : Byte) (tr : List Txn),
    setTuneMode m s = { s with ctrl := c, trace := tr } := by
  have hm : m = 0 ∨ m = 1 ∨ m = 2 ∨ m = 3 := by
    revert m
    decide
  rcases hm with rfl | rfl | rfl | rfl <;> exact ⟨_, _, rfl⟩

theorem capture_frame (s : State) :
    ∃ (c : Byte) (e1 e10 e100 : I32) (f1 f10 f100 : Bool) (tr : List Txn) (env : Environment), capture s = { s with
      ctrl := c, e1 := e1, e10 := e10, e100 := e100, f1 := f1, f10 := f10, f100 := f100, ready := true, trace := tr,
      env := env } := by
  obtain ⟨a0, a1, a2, a3, b0, b1, b2, b3, c0, c1, c2, c3, st, l, hl, he, -⟩ := capture_spec s
  exact ⟨_, _, _, _, _, _, _, _, _, he⟩

/-- POLL may set the ready flag and never clears it (R140). -/
theorem poll_frame (s : State) :
    ∃ (c : Byte) (e1 e10 e100 : I32) (f1 f10 f100 r : Bool) (tr : List Txn) (env : Environment), poll s = { s with
      ctrl := c, e1 := e1, e10 := e10, e100 := e100, f1 := f1, f10 := f10, f100 := f100, ready := r, trace := tr,
      env := env } ∧ (r = s.ready ∨ r = true) := by
  unfold poll
  split
  · exact ⟨_, _, _, _, _, _, _, _, _, _, rfl, .inl rfl⟩
  · dsimp only
    split
    · obtain ⟨c, a, b, d, f, g, h, tr, e, he⟩ := capture_frame (regRead s.cfg.idxStat s).2
      rw [he]
      exact ⟨_, _, _, _, _, _, _, _, _, _, rfl, .inr rfl⟩
    · exact ⟨_, _, _, _, _, _, _, _, _, _, rfl, .inl rfl⟩

/-- R200: without an edge SUPERVISE changes nothing. -/
theorem supervise_self (s : State) : supervise s.enQ s = s := by
  have h1 : risingEdge s.enQ s = false := by simp [risingEdge]
  have h2 : fallingEdge s.enQ s = false := by simp [fallingEdge]
  simp [supervise, superviseEdge, h1, h2]

theorem supervise_frame (en : Bool) (s : State) : ∃ (c : Byte) (tr : List Txn) (ts : TuneState) (r : Bool),
    supervise en s = { s with ctrl := c, trace := tr, tstate := ts, ready := r, enQ := en } ∧
      ts = if en = s.enQ then s.tstate else .coarseTuneMin := by
  obtain ⟨c, tr, h⟩ := setTuneMode_frame 1 s
  obtain ⟨c', tr', h'⟩ := setTuneMode_frame 0 s
  unfold supervise superviseEdge risingEdge fallingEdge tamerInit tamerDisable
  simp only [modeCode]
  simp only [h, h']
  cases en <;> cases hq : s.enQ <;> simp

/-- R160: a step that acts. -/
theorem fsmStep_of_ready {s : State} (h : Ungated s) (hr : s.ready = true) :
    fsmStep s = rearm (fsmArm { s with ready := false }) := by
  simp [fsmStep, gated_eq_false.2 h, hr]

/-- R160, R205: a step that does nothing. -/
theorem fsmStep_idle {s : State} (h : ¬(s.ready = true ∧ Ungated s)) : fsmStep s = s := by
  unfold fsmStep
  split
  · rfl
  · rename_i hg
    rw [Bool.not_eq_true, gated_eq_false] at hg
    rw [if_neg (fun hr => h ⟨hr, hg⟩)]

theorem fsmArm_frame (s : State) :
    ∃ (c : Byte) (v : U16) (x0 x1 : I32) (y0 y1 : U16) (m : F32) (y : U16) (ts : TuneState) (tr : List Txn),
      fsmArm s = { s with
        ctrl := c, trim := v, x0 := x0, y0 := y0, x1 := x1, y1 := y1, slope := m, yint := y, tstate := ts,
        trace := tr } := by
  unfold fsmArm
  cases s.tstate
  · exact ⟨_, _, _, _, _, _, _, _, _, _, rfl⟩
  · exact ⟨_, _, _, _, _, _, _, _, _, _, rfl⟩
  · obtain ⟨m, y, h, -⟩ := calCompute_eq { s with x1 := s.e1, y1 := u16OfNat s.cfg.trimdacMax }
    simp only [coarseDoneArm, h]
    exact ⟨_, _, _, _, _, _, _, _, _, _, rfl⟩
  · obtain ⟨v, tr, h⟩ := fineCorrect_frame s
    simp only [fineTuneArm, h]
    exact ⟨_, _, _, _, _, _, _, _, _, _, rfl⟩

theorem fsmStep_frame (s : State) :
    ∃ (r : Bool) (c : Byte) (v : U16) (x0 x1 : I32) (y0 y1 : U16) (m : F32) (y : U16) (ts : TuneState) (tr : List Txn),
      fsmStep s = { s with
        ready := r, ctrl := c, trim := v, x0 := x0, y0 := y0, x1 := x1, y1 := y1, slope := m, yint := y, tstate := ts,
        trace := tr } := by
  by_cases h : s.ready = true ∧ Ungated s
  · rw [fsmStep_of_ready h.2 h.1]
    obtain ⟨c, v, x0, x1, y0, y1, m, y, ts, tr, he⟩ := fsmArm_frame { s with ready := false }
    rw [he]
    exact ⟨_, _, _, _, _, _, _, _, _, _, _, rfl⟩
  · rw [fsmStep_idle h]
    exact ⟨_, _, _, _, _, _, _, _, _, _, _, rfl⟩

/-- R160 to R163, R166: a step that acts, per state, as one record update. -/
theorem fsmStep_arms {s : State} (hr : s.ready = true) (hu : Ungated s) :
    (s.tstate = .coarseTuneMin → ∃ (c : Byte) (v : U16) (tr : List Txn), fsmStep s =
      { s with ready := false, ctrl := c, trim := v, trace := tr, tstate := .coarseTuneMax }) ∧
    (s.tstate = .coarseTuneMax → ∃ (c : Byte) (v : U16) (tr : List Txn), fsmStep s =
      { s with
        ready := false, ctrl := c, trim := v, trace := tr, tstate := .coarseTuneDone, x0 := s.e1,
        y0 := u16OfNat s.cfg.trimdacMin }) ∧
    (s.tstate = .coarseTuneDone → ∃ (c : Byte) (v : U16) (tr : List Txn) (m : F32) (y : U16), fsmStep s =
      { s with
        ready := false, ctrl := c, trim := v, trace := tr, tstate := .fineTune, x1 := s.e1,
        y1 := u16OfNat s.cfg.trimdacMax, slope := m, yint := y }) ∧
    (s.tstate = .fineTune → ∃ (c : Byte) (v : U16) (tr : List Txn), fsmStep s =
      { s with ready := false, ctrl := c, trim := v, trace := tr }) := by
  rw [fsmStep_of_ready hu hr]
  refine ⟨fun h => ?_, fun h => ?_, fun h => ?_, fun h => ?_⟩
  · exact ⟨_, _, _, by simp only [rearm_eq, fsmArm, h, coarseMinArm, dacWrite_spec, resetCounters_eq]; rfl⟩
  · exact ⟨_, _, _, by simp only [rearm_eq, fsmArm, h, coarseMaxArm, dacWrite_spec, resetCounters_eq]; rfl⟩
  · obtain ⟨m, y, he, -⟩ := calCompute_eq { s with ready := false, x1 := s.e1, y1 := u16OfNat s.cfg.trimdacMax }
    simp only [h] at he
    exact ⟨_, _, _, _, _, by simp only [rearm_eq, fsmArm, h, coarseDoneArm, he, dacWrite_spec, regWrite]; rfl⟩
  · obtain ⟨v, tr, he⟩ := fineCorrect_frame { s with ready := false }
    simp only [h] at he
    exact ⟨_, _, _, by simp only [rearm_eq, fsmArm, h, fineTuneArm, he]; rfl⟩

end Sys2Proof.Machine
end

