-- ==== Sys2Proof/Laws/Observe.lean ====
section
/-! SUPPORT. The observations on a trace after one more write, and after DAC_WRITE's two (70_reset_and_hazards.md R259). -/

namespace Sys2Proof.Machine.Observe

theorem lastWrite_append_same (idx : Nat) (tr : List Txn) (b : Byte) :
    lastWrite idx (tr ++ [.write idx b]) = some b := by
  simp [lastWrite, List.filterMap_append, writtenBy]

theorem lastWrite_append_other {idx j : Nat} (h : j ≠ idx) (tr : List Txn) (b : Byte) :
    lastWrite idx (tr ++ [.write j b]) = lastWrite idx tr := by
  simp [lastWrite, List.filterMap_append, writtenBy, h]

/-- After the two writes of DAC_WRITE `v` the DAC registers hold `v`. -/
theorem dacWord_append_dacWrites {c : Config} (hv : c.valid = true) (tr : List Txn) (v : U16) :
    dacWord c (tr ++ dacWrites c v.toNat) = some v := by
  have hne := (Config.written_indices_distinct hv).2.2.2.2.2
  have e : tr ++ dacWrites c v.toNat = (tr ++ [.write c.idxDacLo (dacLow v)]) ++ [.write c.idxDacHi (dacHigh v)] := by
    rw [dacLow_eq, dacHigh_eq]
    simp [dacWrites]
  rw [e, dacWord, lastWrite_append_same, lastWrite_append_other hne.symm, lastWrite_append_same]
  simp only
  congr 1
  apply BitVec.eq_of_toNat_eq
  rw [toNat_append_eq]
  simp [dacLow, dacHigh, Nat.shiftRight_eq_div_pow]
  omega

end Sys2Proof.Machine.Observe
end

