-- ==== Sys2Proof/Laws/PerInstr.lean ====
section
/-! SUPPORT. Statements about every operation as syntax, one lemma per constructor: its word matches its row of
spec/opcode_table.json, the fixed bits and the must-be-zero bits (30_encoding.md R89 to R91). -/

namespace Sys2Proof.Laws.OperationRow

open Sys2Proof.Machine

/-- The row of spec/opcode_table.json of an operation: mask and match. -/
def row : Instr → OpWord × OpWord
  | .regWrite _ _ => (0xFF0000FF, 0x00000001)
  | .regRead _ => (0xFFFF00FF, 0x00000002)
  | .resetCounters _ => (0xFFFFFEFF, 0x00000003)
  | .enableIsr _ => (0xFFFFFEFF, 0x00000004)
  | .clearIsr => (0xFFFFFFFF, 0x00000005)
  | .setTuneMode _ => (0xFFFFFCFF, 0x00000006)
  | .readCount _ => (0xFFFF00FF, 0x00000007)
  | .dacWrite _ => (0x0000FFFF, 0x00000008)
  | .capture => (0xFFFFFFFF, 0x00000009)
  | .poll => (0xFFFFFFFF, 0x0000000A)
  | .fsmCoarseMin => (0xFFFFFFFF, 0x0000000B)
  | .fsmCoarseMax => (0xFFFFFFFF, 0x0000000B)
  | .fsmCoarseDone => (0xFFFFFFFF, 0x0000000B)
  | .fsmFineTune => (0xFFFFFFFF, 0x0000000B)
  | .calCompute => (0xFFFFFFFF, 0x0000000C)
  | .fineCorrect => (0xFFFFFFFF, 0x0000000D)
  | .rearm => (0xFFFFFFFF, 0x0000000E)
  | .tamerInit => (0xFFFFFFFF, 0x0000000F)
  | .tamerDisable => (0xFFFFFFFF, 0x00000010)
  | .supervise _ => (0xFFFFFEFF, 0x00000011)
  | .tick _ => (0xFFFFFEFF, 0x00000012)
  | .powerOnReset => (0xFFFFFFFF, 0x00000013)

/-- The word of an operation matches its row, and its row is one of the table's. -/
def Statement (i : Instr) : Prop := encode i &&& (row i).1 = (row i).2 ∧ row i ∈ operationRows

theorem regWrite (idx data : BitVec 8) : Statement (.regWrite idx data) := by
  obtain ⟨h1, h2, -⟩ := fields_wordFIW 0x01 idx data
  have hr : ((0xFF0000FF, 0x00000001) : OpWord × OpWord) ∈ operationRows := by decide
  exact ⟨(row_iff _ 0x01 24 8 0xFF0000FF (by decide) (by decide)).2 ⟨h1, (zeroBits_toNat _ _).symm.trans h2⟩, hr⟩

theorem regRead (idx : BitVec 8) : Statement (.regRead idx) := by
  obtain ⟨h1, h2, -⟩ := fields_wordFI 0x02 idx
  have hr : ((0xFFFF00FF, 0x00000002) : OpWord × OpWord) ∈ operationRows := by decide
  exact ⟨(row_iff _ 0x02 16 16 0xFFFF00FF (by decide) (by decide)).2 ⟨h1, (zeroBits_toNat _ _).symm.trans h2⟩, hr⟩

theorem resetCounters (b : Bool) : Statement (.resetCounters b) := by cases b <;> exact ⟨by decide, by decide⟩

theorem enableIsr (b : Bool) : Statement (.enableIsr b) := by cases b <;> exact ⟨by decide, by decide⟩

theorem clearIsr : Statement .clearIsr := ⟨by decide, by decide⟩

theorem setTuneMode (m : BitVec 2) : Statement (.setTuneMode m) := by
  obtain ⟨h1, h2, -⟩ := fields_wordFM 0x06 m
  have hr : ((0xFFFFFCFF, 0x00000006) : OpWord × OpWord) ∈ operationRows := by decide
  exact ⟨(row_iff _ 0x06 10 22 0xFFFFFCFF (by decide) (by decide)).2 ⟨h1, (zeroBits_toNat _ _).symm.trans h2⟩, hr⟩

theorem readCount (idx : BitVec 8) : Statement (.readCount idx) := by
  obtain ⟨h1, h2, -⟩ := fields_wordFI 0x07 idx
  have hr : ((0xFFFF00FF, 0x00000007) : OpWord × OpWord) ∈ operationRows := by decide
  exact ⟨(row_iff _ 0x07 16 16 0xFFFF00FF (by decide) (by decide)).2 ⟨h1, (zeroBits_toNat _ _).symm.trans h2⟩, hr⟩

theorem dacWrite (v : BitVec 16) : Statement (.dacWrite v) := by
  obtain ⟨h1, h2, -⟩ := fields_wordFV 0x08 v
  have hr : ((0x0000FFFF, 0x00000008) : OpWord × OpWord) ∈ operationRows := by decide
  exact ⟨(row_iff _ 0x08 8 8 0x0000FFFF (by decide) (by decide)).2 ⟨h1, (zeroBits_toNat _ _).symm.trans h2⟩, hr⟩

theorem capture : Statement .capture := ⟨by decide, by decide⟩

theorem poll : Statement .poll := ⟨by decide, by decide⟩

theorem fsmCoarseMin : Statement .fsmCoarseMin := ⟨by decide, by decide⟩

theorem fsmCoarseMax : Statement .fsmCoarseMax := ⟨by decide, by decide⟩

theorem fsmCoarseDone : Statement .fsmCoarseDone := ⟨by decide, by decide⟩

theorem fsmFineTune : Statement .fsmFineTune := ⟨by decide, by decide⟩

theorem calCompute : Statement .calCompute := ⟨by decide, by decide⟩

theorem fineCorrect : Statement .fineCorrect := ⟨by decide, by decide⟩

theorem rearm : Statement .rearm := ⟨by decide, by decide⟩

theorem tamerInit : Statement .tamerInit := ⟨by decide, by decide⟩

theorem tamerDisable : Statement .tamerDisable := ⟨by decide, by decide⟩

theorem supervise (en : Bool) : Statement (.supervise en) := by cases en <;> exact ⟨by decide, by decide⟩

theorem tick (en : Bool) : Statement (.tick en) := by cases en <;> exact ⟨by decide, by decide⟩

theorem powerOnReset : Statement .powerOnReset := ⟨by decide, by decide⟩

end Sys2Proof.Laws.OperationRow
end

