-- ==== Sys2Proof/Machine/Text.lean ====
section
/-! DEFINITION. Text notation: one operation per line (30_encoding.md R96), read to its operation word, and the trace notation
of 00_scope.md R12. A line is a list of characters. -/

namespace Sys2Proof.Machine.Text

/-- A space or a tab. -/
def isBlank (c : Char) : Bool := c == ' ' || c == '\t'

/-- R96: `;` starts a comment. -/
def stripComment (l : List Char) : List Char := l.takeWhile (· != ';')

/-- A piece of text without the blanks around it. -/
def trim (l : List Char) : List Char := ((l.dropWhile isBlank).reverse.dropWhile isBlank).reverse

/-- The pieces of a text between its commas, without the blanks around them; no piece for a blank text. -/
def operands (l : List Char) : List (List Char) := if trim l = [] then [] else (l.splitOn ',').map trim

/-- The value of a decimal digit. -/
def decDigit (c : Char) : Option Nat :=
  if '0' ≤ c ∧ c ≤ '9' then some (c.toNat - '0'.toNat) else none

/-- The value of a hexadecimal digit. -/
def hexDigit (c : Char) : Option Nat :=
  if 'a' ≤ c ∧ c ≤ 'f' then some (c.toNat - 'a'.toNat + 10)
  else if 'A' ≤ c ∧ c ≤ 'F' then some (c.toNat - 'A'.toNat + 10)
  else decDigit c

/-- The number a list of digits spells in a base, most significant digit first, after `acc`. -/
def digits (digit : Char → Option Nat) (base : Nat) : Nat → List Char → Option Nat
  | acc, [] => some acc
  | acc, c :: cs =>
    match digit c with
    | some d => digits digit base (base * acc + d) cs
    | none => none

/-- R96: a number, decimal or with the prefix `0x` hexadecimal. -/
def number (l : List Char) : Option Nat :=
  match l with
  | [] => none
  | ['0', 'x'] => none
  | '0' :: 'x' :: cs => digits hexDigit 16 0 cs
  | cs => digits decDigit 10 0 cs

/-- A number below `2 ^ w`, as `w` bits. -/
def bits (w : Nat) (l : List Char) : Option (BitVec w) :=
  match number l with
  | some n => if n < 2 ^ w then some (BitVec.ofNat w n) else none
  | none => none

/-- R96: a Boolean operand, `0` or `1`. -/
def boolOperand (l : List Char) : Option Bool :=
  if l = ['0'] then some false else if l = ['1'] then some true else none

/-- R96: a TuneMode operand, a name or a number 0..3. -/
def modeOperand (l : List Char) : Option (BitVec 2) :=
  if l = "Disabled".toList then some (modeCode .disabled)
  else if l = "OnePPS".toList then some (modeCode .onePPS)
  else if l = "TenMHz".toList then some (modeCode .tenMHz)
  else bits 2 l

/-- R96: the index parameter names. -/
def indexNames (c : Config) : List (String × Nat) :=
  [("IDX_CTRL", c.idxCtrl), ("IDX_STAT", c.idxStat), ("IDX_STATE", c.idxState), ("IDX_DAC_LO", c.idxDacLo),
   ("IDX_DAC_HI", c.idxDacHi), ("IDX_ERR_1S", c.idxErr1s), ("IDX_ERR_10S", c.idxErr10s), ("IDX_ERR_100S", c.idxErr100s)]

/-- R96: an index operand, a number or one of the index parameter names. -/
def idxOperand (c : Config) (l : List Char) : Option (BitVec 8) :=
  match (indexNames c).find? (fun p => decide (p.1.toList = l)) with
  | some p => if p.2 < 256 then some (BitVec.ofNat 8 p.2) else none
  | none => bits 8 l

/-- The opcodes of the operations without operands (R91, format F0), by mnemonic. -/
def plainOps : List (String × BitVec 8) :=
  [("CLEAR_ISR", 0x05), ("CAPTURE", 0x09), ("POLL", 0x0A), ("FSM_STEP", 0x0B), ("CAL_COMPUTE", 0x0C),
   ("FINE_CORRECT", 0x0D), ("REARM", 0x0E), ("TAMER_INIT", 0x0F), ("TAMER_DISABLE", 0x10), ("POWER_ON_RESET", 0x13)]

/-- The opcodes of the operations with one Boolean operand (R91, format FB), by mnemonic. -/
def boolOps : List (String × BitVec 8) :=
  [("RESET_COUNTERS", 0x03), ("ENABLE_ISR", 0x04), ("SUPERVISE", 0x11), ("TICK", 0x12)]

/-- The opcodes of the operations with one index operand (R91, format FI), by mnemonic. -/
def idxOps : List (String × BitVec 8) := [("REG_READ", 0x02), ("READ_COUNT", 0x07)]

/-- The opcode a mnemonic has in a list. -/
def opcodeIn (ops : List (String × BitVec 8)) (m : List Char) : Option (BitVec 8) :=
  (ops.find? (fun p => decide (p.1.toList = m))).map Prod.snd

/-- The operation word of a mnemonic and its operands (R90, R91, R96). -/
def operation (c : Config) (m : List Char) (args : List (List Char)) : Option OpWord :=
  match args with
  | [] => (opcodeIn plainOps m).map wordF0
  | [a] =>
    if m = "SET_TUNE_MODE".toList then (modeOperand a).map (wordFM 0x06)
    else if m = "DAC_WRITE".toList then (bits 16 a).map (wordFV 0x08)
    else
      match opcodeIn boolOps m, opcodeIn idxOps m with
      | some op, _ => (boolOperand a).map (wordFB op)
      | none, some op => (idxOperand c a).map (wordFI op)
      | none, none => none
  | [a, b] =>
    if m = "REG_WRITE".toList then
      match idxOperand c a, bits 8 b with
      | some i, some d => some (wordFIW 0x01 i d)
      | _, _ => none
    else none
  | _ => none

/-- R96: the operation word a line of text spells: a mnemonic, then its operands separated by commas, then perhaps a comment.
None when the line spells no operation. -/
def assemble (c : Config) (line : List Char) : Option OpWord :=
  let l := trim (stripComment line)
  operation c (l.takeWhile (fun ch => !isBlank ch)) (operands (l.dropWhile (fun ch => !isBlank ch)))

/-- The two hexadecimal digits of a byte, high digit first (R12). -/
def hexByte (b : Byte) : List Char :=
  [Nat.digitChar (b.toNat / 16), Nat.digitChar (b.toNat % 16)].map Char.toUpper

/-- R12: a transaction as `W[idx]=bb` or `R[idx]=bb`. -/
def txnText : Txn → List Char
  | .read i b => ['R', '['] ++ Nat.toDigits 10 i ++ [']', '='] ++ hexByte b
  | .write i b => ['W', '['] ++ Nat.toDigits 10 i ++ [']', '='] ++ hexByte b

end Sys2Proof.Machine.Text
end

