-- ==== Sys2Proof/Tests/Slice0.lean ====
section
/-! SUPPORT. Tests and witnesses. Expected results are those of spec/95_test_vectors.md (DE, RI, RC, DW, MC, CL, FC, FS, SV and
PR vectors) and of the rules' own examples, not the model's. A theorem `witness_<Name>` shows a state and operands that meet
every hypothesis of Obligations.<Name> together. -/

namespace Sys2Proof.Tests

open Sys2Proof.Machine Sys2Proof.Machine.Observe

/-- The reset state with an empty trace, a shadow, and named answers of the environment. -/
def bench (ctrl : Byte) (answers : List Byte) : State :=
  { State.reset with ctrl := ctrl, trace := [], env := { State.reset.env with answers := answers } }

/-- `bench` in a running session. -/
def running (ctrl : Byte) (answers : List Byte) : State := { bench ctrl answers with enQ := true }

/-- `running` with a ready record in a TuneState. -/
def readyIn (ts : TuneState) (ctrl : Byte) (e1 : I32) : State :=
  { running ctrl [] with tstate := ts, ready := true, e1 := e1 }

/-- The default configuration with `DAC_MAX` = 4095 and the DAC parameters in its range. -/
def narrow : Config :=
  { Config.default with dacMax := 4095, trimdacMax := 4095, dacPowerupDefault := 2048, dacDegenerateDefault := 2000 }

/-- The next state of an operation, if it completes. -/
def after (i : Instr) (s : State) : Option State :=
  match exec i s with
  | .next t => some t
  | .fault _ => none
  | .refused _ => none

/-- The refusal of an operation, if it is refused. -/
def refusal (i : Instr) (s : State) : Option Refusal :=
  match exec i s with
  | .next _ => none
  | .fault _ => none
  | .refused r => some r

/-- The next state of a step, if it completes. -/
def stepped (s : State) : Option State :=
  match step s with
  | .next t => some t
  | .fault _ => none
  | .refused _ => none

/-- The refusal of a step, if it is refused. -/
def stepRefusal (s : State) : Option Refusal :=
  match step s with
  | .next _ => none
  | .fault _ => none
  | .refused r => some r

theorem shadow_00 : ShadowOk 0x00 := ⟨by decide, by decide, by decide⟩

theorem shadow_41 : ShadowOk 0x41 := ⟨by decide, by decide, by decide⟩

theorem shadow_42 : ShadowOk 0x42 := ⟨by decide, by decide, by decide⟩

theorem shadow_82 : ShadowOk 0x82 := ⟨by decide, by decide, by decide⟩

/-! WellFormed smoke tests: each check refuses an ill-formed term, and passes at its boundary. -/

/-- DW-5: `DAC_MAX` = 4095 refuses 4096 and permits 4095. -/
theorem test_wellFormed_dacWrite :
    Instr.wellFormed narrow (.dacWrite 4096) = false ∧ Instr.wellFormed narrow (.dacWrite 4095) = true := by decide

/-- RC-7: index 253 is refused, 252 is permitted. -/
theorem test_wellFormed_readCount :
    Instr.wellFormed narrow (.readCount 253) = false ∧ Instr.wellFormed narrow (.readCount 252) = true := by decide

/-- R7: each constraint fails on a configuration that violates it. -/
theorem test_valid :
    Config.default.valid = true ∧ narrow.valid = true ∧
    Config.valid { Config.default with base := 2 } = false ∧
    Config.valid { Config.default with base := 4294966272 + 4 } = false ∧
    Config.valid { Config.default with base := 4294966272 } = true ∧
    Config.valid { Config.default with idxErr100s := 253 } = false ∧
    Config.valid { Config.default with idxErr100s := 252 } = true ∧
    Config.valid { Config.default with idxState := 8 } = false ∧
    Config.valid { Config.default with dacMax := 65536 } = false ∧
    Config.valid { Config.default with dacMax := 65534 } = false ∧
    Config.valid { Config.default with statBit100s := 8 } = false ∧
    Config.valid { Config.default with statBit100s := 1 } = false ∧
    Config.valid { Config.default with slopePowerup := 0x7F800000 } = false := by decide

/-! Decoding: a word written out from R90 and R91 for every row of the opcode table, and the refusals of 95 section 2.1. -/

/-- FIW `00000000 dddddddd iiiiiiii 00000001` with idx 0, data 0x86 (DE-5); FI with opcode 0x02 and idx 1. -/
theorem test_decode_access :
    decode .fineTune 0b00000000_10000110_00000000_00000001 = .ok (.regWrite 0 0x86) ∧
    decode .fineTune 0b00000000_00000000_00000001_00000010 = .ok (.regRead 1) ∧
    decode .fineTune 0b00000000_00000000_00000101_00000111 = .ok (.readCount 5) := by decide

/-- FB and FM words of the control mutators (DE-4). -/
theorem test_decode_control :
    decode .fineTune 0b00000000_00000000_00000001_00000011 = .ok (.resetCounters true) ∧
    decode .fineTune 0b00000000_00000000_00000000_00000011 = .ok (.resetCounters false) ∧
    decode .fineTune 0b00000000_00000000_00000001_00000100 = .ok (.enableIsr true) ∧
    decode .fineTune 0b00000000_00000000_00000000_00000101 = .ok .clearIsr ∧
    decode .fineTune 0b00000000_00000000_00000011_00000110 = .ok (.setTuneMode 3) ∧
    decode .fineTune 0b00000000_00000000_00000010_00000110 = .ok (.setTuneMode 2) := by decide

/-- FV `vvvvvvvv vvvvvvvv 00000000 00001000` (DE-7, DE-17), and the F0 words of capture. -/
theorem test_decode_dac_and_capture :
    decode .fineTune 0b01111101_01110001_00000000_00001000 = .ok (.dacWrite 32113) ∧
    decode .fineTune 0b00000000_00000001_00000000_00001000 = .ok (.dacWrite 1) ∧
    decode .fineTune 0b00000000_00000000_00000000_00001001 = .ok .capture ∧
    decode .fineTune 0b00000000_00000000_00000000_00001010 = .ok .poll := by decide

/-- The word of FSM_STEP in each state (DE-8), and the F0 words of the calibration. -/
theorem test_decode_fsm :
    decode .coarseTuneMin 0b00000000_00000000_00000000_00001011 = .ok .fsmCoarseMin ∧
    decode .coarseTuneMax 0b00000000_00000000_00000000_00001011 = .ok .fsmCoarseMax ∧
    decode .coarseTuneDone 0b00000000_00000000_00000000_00001011 = .ok .fsmCoarseDone ∧
    decode .fineTune 0b00000000_00000000_00000000_00001011 = .ok .fsmFineTune ∧
    decode .fineTune 0b00000000_00000000_00000000_00001100 = .ok .calCompute ∧
    decode .fineTune 0b00000000_00000000_00000000_00001101 = .ok .fineCorrect ∧
    decode .fineTune 0b00000000_00000000_00000000_00001110 = .ok .rearm := by decide

/-- The words of the supervisory loop and of reset (DE-1 to DE-3). -/
theorem test_decode_supervisory :
    decode .fineTune 0b00000000_00000000_00000000_00001111 = .ok .tamerInit ∧
    decode .fineTune 0b00000000_00000000_00000000_00010000 = .ok .tamerDisable ∧
    decode .fineTune 0b00000000_00000000_00000001_00010001 = .ok (.supervise true) ∧
    decode .fineTune 0b00000000_00000000_00000001_00010010 = .ok (.tick true) ∧
    decode .fineTune 0b00000000_00000000_00000000_00010010 = .ok (.tick false) ∧
    decode .fineTune 0b00000000_00000000_00000000_00010011 = .ok .powerOnReset := by decide

/-- DE-9 to DE-16: reserved opcodes and must-be-zero bits. -/
theorem test_decode_refuses :
    decode .fineTune 0x00000000 = .error (.undefinedOperation 0x00000000) ∧
    decode .fineTune 0x00000014 = .error (.undefinedOperation 0x00000014) ∧
    decode .fineTune 0x000000FF = .error (.undefinedOperation 0x000000FF) ∧
    decode .fineTune 0x00000205 = .error (.undefinedOperation 0x00000205) ∧
    decode .fineTune 0x00000406 = .error (.undefinedOperation 0x00000406) ∧
    decode .fineTune 0x00000212 = .error (.undefinedOperation 0x00000212) ∧
    decode .fineTune 0x01000001 = .error (.undefinedOperation 0x01000001) ∧
    decode .fineTune 0x00000108 = .error (.undefinedOperation 0x00000108) := by decide

/-- The table's numbering of a word's bits is the word's own. -/
theorem test_decodeTableWord :
    decodeTableWord 32 0x7D710008 = some (.dacWrite 32113) ∧ decodeTableWord 32 0x0000000B = some .fsmCoarseMin ∧
    decodeTableWord 32 0x00000014 = none := by decide

/-! Text (R96's examples; R12's notation) -/

theorem test_assemble :
    Text.assemble Config.default "TICK 1".toList = some 0x00000112 ∧
    Text.assemble Config.default "SET_TUNE_MODE OnePPS".toList = some 0x00000106 ∧
    Text.assemble Config.default "REG_WRITE IDX_STATE, 0x00".toList = some 0x00000201 ∧
    Text.assemble Config.default "READ_COUNT IDX_ERR_1S ; the 1 s counter".toList = some 0x00000507 ∧
    Text.assemble Config.default "DAC_WRITE 32768".toList = some 0x80000008 := by decide

theorem test_assemble_refuses :
    Text.assemble Config.default "TICK 2".toList = none ∧ Text.assemble Config.default "TICK".toList = none ∧
    Text.assemble Config.default "SET_TUNE_MODE 4".toList = none ∧ Text.assemble Config.default "".toList = none := by
  decide

theorem test_txnText :
    Text.txnText (.write 0 0x4A) = "W[0]=4A".toList ∧ Text.txnText (.read 16 0x01) = "R[16]=01".toList := by decide

/-! Encoding obligations -/

theorem witness_DecodeOfEncode :
    Instr.selectedIn .fineTune .fsmFineTune = true ∧ Instr.selectedIn .fineTune (.regWrite 255 255) = true := by decide

theorem witness_EncodeOfDecode : decode .fineTune 0xFFFF0008 = .ok (.dacWrite 0xFFFF) := by decide

/-! Step, completion, refusal -/

/-- A pending word, and an empty queue: the step then runs TICK with the level sampled. -/
theorem witness_StepRunsDecodedOperation :
    (invokeNext 0x00000010 State.reset).env.pending = 0x00000010 :: [] ∧
    decode (invokeNext 0x00000010 State.reset).tstate 0x00000010 = .ok .tamerDisable ∧
    State.reset.env.pending = [] := by decide

/-- The interface's word is the next one run. -/
theorem test_withFetchWord :
    (stepped (State.reset.withFetchWord 32 0x00000010)).map State.ctrl = some 0x01 ∧
    stepRefusal (State.reset.withFetchWord 32 0x00000014) = some (.undefinedOperation 0x00000014) := by decide

theorem witness_RefusalsByName :
    (invokeNext 0x00000014 State.reset).env.pending = 0x00000014 :: [] ∧
    (∀ r ∈ operationRows, (0x00000014 : OpWord) &&& r.1 ≠ r.2) ∧
    4095 < (4096 : U16).toNat ∧ 252 < (253 : BitVec 8).toNat ∧
    refusal (.dacWrite 4096) { bench 0 [] with cfg := narrow } = some (.dacRange 4096) ∧
    refusal (.readCount 253) (bench 0 []) = some (.countIndexRange 253) ∧
    refusal .calCompute { bench 0 [] with cfg := { Config.default with base := 1 } } = some .badConfiguration :=
  ⟨by decide, by simp [operationRows], by decide, by decide, by decide, by decide, by decide⟩

/-! Reset and invariant -/

/-- PR-1, PR-2: from another state; the trace is forgotten, a configured default is driven. -/
theorem witness_PowerOnResetState :
    (running 0x42 []).cfg.valid = true ∧
    (after .powerOnReset (readyIn .fineTune 0x42 7)).map (fun t => (t.ctrl, t.tstate, t.ready, t.enQ, t.e1)) =
      some (0x00, .coarseTuneMin, false, false, 0) ∧
    (after .powerOnReset { bench 0x42 [] with cfg := { Config.default with dacPowerupDefault := 1000 } }).map
      (fun t => (t.trim, t.trace)) = some (1000, [.write 3 0xE8, .write 4 0x03]) := by decide

/-- A state that meets the invariant, and a step from it. -/
theorem witness_StepKeepsInvariant :
    (invokeNext 0x0000000F (running 0x42 [])).Inv ∧
      (stepped (invokeNext 0x0000000F (running 0x42 []))).map State.ctrl = some 0x42 :=
  ⟨⟨by decide, shadow_42, ⟨by decide, by decide⟩, by decide, fun t ht => by cases ht⟩, by decide⟩

theorem witness_TraceGrowsByTheAnswersRead :
    after (.regRead 1) (bench 0 [7, 9]) = some { bench 0 [9] with
      trace := [.read 1 7], ret := some (.byte 7), env := { answers := [9], draws := 1, pending := [], samples := 0 } } ∧
    Instr.regRead 1 ≠ .powerOnReset := by decide

theorem witness_EveryByteIsAdmitted : (bench 0 []).cfg.valid = true := by decide

/-! Register Interface -/

/-- RI-2. -/
theorem witness_RegWriteAppendsOneWrite :
    (bench 0x42 []).cfg.valid = true ∧
    after (.regWrite 0 0x86) (bench 0x42 []) = some { bench 0x42 [] with trace := [.write 0 0x86] } := by decide

/-- RI-1. -/
theorem witness_RegReadReturnsTheByteRead :
    (bench 0x42 [0x01]).cfg.valid = true ∧
    (after (.regRead 1) (bench 0x42 [0x01])).map (fun t => (t.trace, t.ret, t.ctrl)) =
      some ([.read 1 0x01], some (.byte 0x01), 0x42) := by decide

/-- RI-3, RI-4. -/
theorem witness_ResetCountersWritesBitZero :
    (bench 0x42 []).cfg.valid = true ∧
    after (.resetCounters true) (bench 0x42 []) = some { bench 0x43 [] with trace := [.write 0 0x43] } ∧
    after (.resetCounters true) (bench 0x43 []) = some { bench 0x43 [] with trace := [.write 0 0x43] } := by decide

/-- RI-5. -/
theorem witness_EnableIsrWritesBitOne :
    (bench 0x43 []).cfg.valid = true ∧
    after (.enableIsr false) (bench 0x43 []) = some { bench 0x41 [] with trace := [.write 0 0x41] } := by decide

/-- RI-6, RI-7. -/
theorem witness_ClearIsrPulsesBitTwo :
    (bench 0x41 []).cfg.valid = true ∧
    after .clearIsr (bench 0x41 []) = some { bench 0x41 [] with trace := [.write 0 0x45] } ∧
    after .clearIsr (bench 0x82 []) = some { bench 0x82 [] with trace := [.write 0 0x86] } := by decide

/-- RI-9, RI-10, RI-12: a running mode, Disabled, and the unrecognised code. -/
theorem witness_SetTuneModeSequence :
    (bench 0x00 []).cfg.valid = true ∧ ShadowOk (bench 0x00 []).ctrl ∧ ShadowOk (bench 0x82 []).ctrl ∧
    after (.setTuneMode 0b10) (bench 0x00 []) = some { bench 0x82 [] with
      trace := [.write 0 0x00, .write 0 0x80, .write 0 0x81, .write 0 0x80, .write 0 0x82] } ∧
    after (.setTuneMode 0b00) (bench 0x82 []) = some { bench 0x01 [] with
      trace := [.write 0 0x80, .write 0 0x00, .write 0 0x01] } ∧
    after (.setTuneMode 0b11) (bench 0x42 []) = some (bench 0x42 []) :=
  ⟨by decide, shadow_00, shadow_82, by decide, by decide, by decide⟩

/-- RI-13: the mode's own write carries the old reset bit. -/
theorem test_setTuneMode_old_reset :
    (after (.setTuneMode 0b01) (bench 0x41 [])).map State.trace =
      some [.write 0 0x41, .write 0 0x41, .write 0 0x41, .write 0 0x40, .write 0 0x42] := by decide

/-- P4 steps 4 and 5. -/
theorem witness_DisableTwiceIsDisableOnce :
    (after .tamerDisable (bench 0x82 [])).map State.ctrl = some 0x01 ∧
    ((after .tamerDisable (bench 0x82 [])).bind (after .tamerDisable)).map State.trace =
      some [.write 0 0x80, .write 0 0x00, .write 0 0x01, .write 0 0x01, .write 0 0x01, .write 0 0x01] := by decide

/-- RC-1, and the last permitted index. -/
theorem witness_ReadCountIsLittleEndian :
    (bench 0 []).cfg.valid = true ∧ (5 : BitVec 8).toNat ≤ 252 ∧
    (after (.readCount 5) (bench 0 [0x34, 0x12, 0xFF, 0x80])).map (fun t => (t.trace, t.ret)) =
      some ([.read 5 0x34, .read 6 0x12, .read 7 0xFF, .read 8 0x80], some (.count (-2130767308))) ∧
    (after (.readCount 252) (bench 0 [0xFF, 0xFF, 0xFF, 0x7F])).map State.ret =
      some (some (.count 2147483647)) := by decide

/-- RC-2 to RC-6, as integers. -/
theorem test_leInt32 :
    leInt32 0xFF 0xFF 0xFF 0xFF = -1 ∧ leInt32 0xFF 0xFF 0xFF 0x7F = 2147483647 ∧
    leInt32 0x00 0x00 0x00 0x80 = -2147483648 ∧ leInt32 0x0C 0xFE 0xFF 0xFF = -500 ∧
    leInt32 0xF4 0x01 0x00 0x00 = 500 := by decide

theorem witness_ShadowIsTheLastControlByte :
    (bench 0x82 []).cfg.valid = true ∧
    (after .clearIsr (bench 0x82 [])).map (fun t => lastWrite t.cfg.idxCtrl t.trace) = some (some 0x86) := by decide

/-! DAC Trim Writer -/

/-- DW-1, and the largest permitted value under `DAC_MAX` = 4095. -/
theorem witness_DacWriteLowThenHigh :
    (bench 0 []).cfg.valid = true ∧ (32113 : U16).toNat ≤ (bench 0 []).cfg.dacMax ∧
    after (.dacWrite 32113) (bench 0 []) = some { bench 0 [] with
      trim := 32113, trace := [.write 3 0x71, .write 4 0x7D] } ∧
    (after (.dacWrite 4095) { bench 0 [] with cfg := narrow }).map State.trace =
      some [.write 3 0xFF, .write 4 0x0F] := by decide

/-- DW-6: the torn word between the two writes. -/
theorem witness_DacWordIsTornBetweenTheWrites :
    State.reset.cfg.valid = true ∧ (0x1234 : U16).toNat ≤ State.reset.cfg.dacMax ∧
    dacWord State.reset.cfg State.reset.trace = some 0x8000 ∧
    dacWord State.reset.cfg (State.reset.trace ++ [.write 3 0x34]) = some 0x8034 ∧
    tornWord 0x8000 0x1234 = 0x8034 := by decide

theorem witness_TrimChangesReachTheDac :
    (after (.dacWrite 1) (bench 0 [])).map (fun t => (decide (t.trim ≠ (bench 0 []).trim), dacWord t.cfg t.trace)) =
      some (true, some 1) := by decide

/-! Measurement Capture -/

/-- The answers of MC-3's capture. -/
def mc3 : List Byte := [0x6F, 0, 0, 0, 0, 0, 0, 0, 0, 0, 0, 0, 0x01]

/-- MC-7: the capture of MC-3 invoked directly. -/
theorem witness_CaptureFillsTheRecord :
    (bench 0x42 mc3).cfg.valid = true ∧ ShadowOk (bench 0x42 mc3).ctrl ∧
    (after .capture (bench 0x42 mc3)).map (fun t => (t.e1, t.e10, t.f1, t.f10, t.ready, t.ctrl)) =
      some (111, 0, true, false, true, 0x41) ∧
    (after .capture (bench 0x42 mc3)).map (fun t => (t.trace.take 4, t.trace.drop 13)) =
      some ([.write 0 0x40, .write 0 0x41, .read 5 0x6F, .read 6 0], [.read 16 0, .read 1 0x01, .write 0 0x45]) :=
  ⟨by decide, shadow_42, by decide, by decide⟩

/-- MC-2, MC-1 and MC-6: gated, a zero STAT byte, and a capture whose flags come from its own STAT read. -/
theorem witness_PollCapturesWhenStatIsNonZero :
    (bench 0x42 []).cfg.valid = true ∧ (bench 0x42 []).enQ = false ∧ (bench 0x42 []).cfg.runWhileDisabled = false ∧
    (running 0x42 []).enQ = true ∧
    after .poll (bench 0x42 [0x01]) = some (bench 0x42 [0x01]) ∧
    (after .poll (running 0x42 [0x00])).map (fun t => (t.trace, t.ready)) = some ([.read 1 0x00], false) ∧
    (after .poll (running 0x42 ([0x01] ++ mc3.take 12 ++ [0x04]))).map (fun t => (t.f1, t.f10, t.f100, t.ready)) =
      some (false, false, true, true) := by decide

theorem witness_RecordIsWrittenOnlyByCapture :
    (after .fineCorrect (readyIn .fineTune 0x41 7)).map State.e1 = some 7 ∧
    Instr.fineCorrect ∉ [Instr.capture, .poll, .powerOnReset] ∧ Instr.fineCorrect ≠ .tick true := by decide

/-- MC-4: a second capture overwrites the first. -/
theorem witness_CaptureOverwritesAnUnconsumedRecord :
    (bench 0x41 []).cfg.valid = true ∧
    (after .capture { bench 0x41 [0xDE, 0, 0, 0, 0x4D, 0x01, 0, 0, 0, 0, 0, 0, 0x02] with e1 := 111, ready := true }).map
      (fun t => (t.e1, t.e10, t.f1, t.f10, t.ready)) = some (222, 333, false, true, true) := by decide

/-! Calibration -/

/-- A state with calibration points. -/
def points (x0 : I32) (y0 : U16) (x1 : I32) (y1 : U16) : State := { bench 0 [] with x0 := x0, y0 := y0, x1 := x1, y1 := y1 }

/-- CL-3b: the slope is kept. -/
theorem witness_DegenerateCalibration :
    (points (-500) 0 (-500) 65535).cfg.valid = true ∧ (points (-500) 0 (-500) 65535).x1 = (points (-500) 0 (-500) 65535).x0 ∧
    after .calCompute { points (-500) 0 (-500) 65535 with slope := 0x3FC00000 } =
      some { points (-500) 0 (-500) 65535 with slope := 0x3FC00000, yint := 32000 } := by decide

/-- CL-1 and CL-7. -/
theorem witness_CalibrationLine :
    (points (-500) 0 500 65535).cfg.valid = true ∧ (points (-500) 0 500 65535).x1 ≠ (points (-500) 0 500 65535).x0 ∧
    after .calCompute (points (-500) 0 500 65535) =
      some { points (-500) 0 500 65535 with slope := 0x428311EC, yint := 32768 } ∧
    (after .calCompute (points (-2147483648) 0 2147483647 65535)).map (fun t => (t.slope, t.yint)) =
      some (0x377FFF00, 32768) := by decide

/-- CL-6 and CL-12: a negative slope, and the clamp. -/
theorem test_calCompute :
    (after .calCompute (points 200 0 (-200) 65535)).map (fun t => (t.slope, t.yint)) = some (0xC323D666, 32767) ∧
    (after .calCompute (points (-1500) 0 (-500) 65535)).map (fun t => (t.slope, t.yint)) =
      some (0x428311EC, 65535) := by decide

theorem witness_CalibrationIsFinite : (2147483647 : I32) ≠ -2147483648 := by decide

/-- 1, 16777217 (a tie, to even) and 16777219 convert; 1.5 times 1.5; 1 over 3. -/
theorem witness_BinaryArithmeticIsNearestEven :
    F32.isFinite 0x3F800000 = true ∧ toF32 1 = 0x3F800000 ∧ toF32 16777217 = 0x4B800000 ∧ toF32 16777219 = 0x4B800002 ∧
    F32.isFinite 0x3FC00000 = true ∧ f32Mul 0x3FC00000 0x3FC00000 = 0x40100000 ∧
    f32Num 0x40400000 ≠ 0 ∧ f32Div 0x3F800000 0x40400000 = 0x3EAAAAAB := by decide

/-- The largest finite value times 1 and divided by 1 is finite, times 2 and divided by one half is not. -/
theorem witness_BinaryArithmeticOverflowsOnlyPastTheLargest :
    F32.isFinite 0x7F7FFFFF = true ∧ F32.isFinite 0x3F800000 = true ∧ F32.isFinite 0x40000000 = true ∧
    f32Num 0x3F000000 ≠ 0 ∧ f32Mul 0x7F7FFFFF 0x3F800000 = 0x7F7FFFFF ∧ f32Div 0x7F7FFFFF 0x3F800000 = 0x7F7FFFFF ∧
    F32.isFinite (f32Mul 0x7F7FFFFF 0x40000000) = false ∧ F32.isFinite (f32Div 0x7F7FFFFF 0x3F000000) = false := by decide

/-- R11: `round(2.5) = 3`, `round(-2.5) = -3`, `round(-32767.5) = -32768`. -/
theorem witness_RoundIsHalfAwayFromZero :
    F32.isFinite 0x40200000 = true ∧ roundF32 0x40200000 = 3 ∧ roundF32 0xC0200000 = -3 ∧
    roundF32 0xC6FFFF00 = -32768 := by decide

/-- A state for FINE_CORRECT: trim 32768, a slope, the record. -/
def record (slope : F32) (e1 e10 e100 : I32) (f1 f10 f100 : Bool) : State :=
  { bench 0 [] with slope := slope, e1 := e1, e10 := e10, e100 := e100, f1 := f1, f10 := f10, f100 := f100 }

/-- FC-13, FC-4b, FC-2 and FC-3: no flag, and each scale. -/
theorem witness_FineCorrectUsesTheFinestEpoch :
    (record 0x428311EC 5 5 5 false false false).cfg.valid = true ∧
    after .fineCorrect (record 0x428311EC 5 5 5 false false false) = some (record 0x428311EC 5 5 5 false false false) ∧
    (after .fineCorrect (record 0x428311EC 1 100 (-7) true true true)).map State.trim = some 32702 ∧
    (after .fineCorrect (record 0x428311EC 0 100 0 false true false)).map State.trim = some 32113 ∧
    (after .fineCorrect (record 0x428311EC 0 0 (-7) false false true)).map State.trim = some 32772 := by decide

/-- FC-10 and FC-16: the clamp, and a tie away from zero. -/
theorem test_fineCorrect :
    (after .fineCorrect (record 0x428311EC (-2147483648) 0 0 true false false)).map State.trim = some 65535 ∧
    (after .fineCorrect (record 0x40200000 (-1) 0 0 true false false)).map State.trim = some 32771 := by decide

/-- R169's example. -/
theorem witness_RearmReleasesThenEnables :
    (bench 0x41 []).cfg.valid = true ∧ ShadowOk (bench 0x41 []).ctrl ∧
    after .rearm (bench 0x41 []) = some { bench 0x42 [] with trace := [.write 0 0x40, .write 0 0x42] } :=
  ⟨by decide, shadow_41, by decide⟩

/-- FS-1 and FS-8. -/
theorem witness_FsmStepIdlesWithoutARecord :
    (running 0x42 []).cfg.valid = true ∧ (running 0x42 []).ready = false ∧
    after .fsmFineTune (running 0x42 []) = some (running 0x42 []) ∧
    after .fsmCoarseMax { readyIn .coarseTuneMax 0x41 1 with enQ := false } =
      some { readyIn .coarseTuneMax 0x41 1 with enQ := false } := by decide

/-- FS-2. -/
theorem witness_CoarseMinArm :
    (readyIn .coarseTuneMin 0x42 5).cfg.valid = true ∧ ShadowOk (readyIn .coarseTuneMin 0x42 5).ctrl ∧
    Ungated (readyIn .coarseTuneMin 0x42 5) ∧ (readyIn .coarseTuneMin 0x42 5).ready = true ∧
    (readyIn .coarseTuneMin 0x42 5).tstate = .coarseTuneMin ∧
    after .fsmCoarseMin (readyIn .coarseTuneMin 0x42 5) = some { readyIn .coarseTuneMax 0x42 5 with
      ready := false, trim := 0
      trace := [.write 3 0x00, .write 4 0x00, .write 0 0x43, .write 0 0x42, .write 0 0x42] } :=
  ⟨by decide, shadow_42, .inl rfl, by decide, by decide, by decide⟩

/-- FS-3. -/
theorem witness_CoarseMaxArm :
    (readyIn .coarseTuneMax 0x41 (-500)).cfg.valid = true ∧ ShadowOk (readyIn .coarseTuneMax 0x41 (-500)).ctrl ∧
    Ungated (readyIn .coarseTuneMax 0x41 (-500)) ∧ (readyIn .coarseTuneMax 0x41 (-500)).ready = true ∧
    (readyIn .coarseTuneMax 0x41 (-500)).tstate = .coarseTuneMax ∧
    after .fsmCoarseMax (readyIn .coarseTuneMax 0x41 (-500)) = some { readyIn .coarseTuneDone 0x42 (-500) with
      ready := false, x0 := -500, y0 := 0, trim := 65535
      trace := [.write 3 0xFF, .write 4 0xFF, .write 0 0x41, .write 0 0x40, .write 0 0x42] } :=
  ⟨by decide, shadow_41, .inl rfl, by decide, by decide, by decide⟩

/-- FS-4. -/
theorem witness_CoarseDoneArm :
    (readyIn .coarseTuneDone 0x41 500).cfg.valid = true ∧ ShadowOk (readyIn .coarseTuneDone 0x41 500).ctrl ∧
    Ungated (readyIn .coarseTuneDone 0x41 500) ∧ (readyIn .coarseTuneDone 0x41 500).ready = true ∧
    (readyIn .coarseTuneDone 0x41 500).tstate = .coarseTuneDone ∧
    after .fsmCoarseDone { readyIn .coarseTuneDone 0x41 500 with x0 := -500 } =
      some { readyIn .fineTune 0x42 500 with
        ready := false, x0 := -500, x1 := 500, y1 := 65535, slope := 0x428311EC, yint := 32768, trim := 32768
        trace := [.write 3 0x00, .write 4 0x80, .write 2 0x01, .write 0 0x40, .write 0 0x42] } :=
  ⟨by decide, shadow_41, .inl rfl, by decide, by decide, by decide⟩

/-- FS-6 and FS-7. -/
theorem witness_FineTuneArm :
    (readyIn .fineTune 0x41 10).cfg.valid = true ∧ Ungated (readyIn .fineTune 0x41 10) ∧
    (readyIn .fineTune 0x41 10).ready = true ∧ (readyIn .fineTune 0x41 10).tstate = .fineTune ∧
    (after .fsmFineTune { readyIn .fineTune 0x41 10 with slope := 0x428311EC, f1 := true }).map
      (fun t => (t.trim, t.tstate, t.trace)) =
        some (32113, .fineTune, [.write 3 0x71, .write 4 0x7D, .write 0 0x40, .write 0 0x42]) ∧
    (after .fsmFineTune (readyIn .fineTune 0x41 10)).map State.trace = some [.write 0 0x40, .write 0 0x42] :=
  ⟨by decide, .inl rfl, by decide, by decide, by decide, by decide⟩

/-- A step that acts, an edge, and an operation that keeps the state. -/
theorem witness_TransitionTable :
    (after (.fsmRow .coarseTuneMax) (readyIn .coarseTuneMax 0x41 1)).map State.tstate = some .coarseTuneDone ∧
    (after (.supervise false) (readyIn .fineTune 0x41 1)).map State.tstate = some .coarseTuneMin ∧
    (after (.supervise true) (readyIn .fineTune 0x41 1)).map State.tstate = some .fineTune ∧
    (after .rearm (readyIn .fineTune 0x41 1)).map State.tstate = some .fineTune := by decide

/-- L1-5 with e0 = 111 and e1 = 222, from the state after SV-1. -/
theorem witness_ThreeRecordsReachFineTune :
    let s0 := { readyIn .coarseTuneMin 0x42 0 with
      env := { State.reset.env with answers := mc3 ++ [0xDE, 0, 0, 0, 0, 0, 0, 0, 0, 0, 0, 0, 0x01] } }
    Ungated s0 ∧ s0.ready = true ∧ s0.tstate = .coarseTuneMin ∧
    (((((after .fsmCoarseMin s0).bind (after .capture)).bind (after .fsmCoarseMax)).bind (after .capture)).bind
      (after .fsmCoarseDone)).map (fun t => (t.tstate, t.x0, t.x1)) = some (.fineTune, 111, 222) :=
  ⟨.inl rfl, by decide, by decide, by decide⟩

/-- A TICK in FineTune that corrects. -/
theorem witness_SessionKeepsTheCalibrationLine :
    let s := { running 0x42 ([0x01] ++ mc3) with tstate := .fineTune, slope := 0x40200000, yint := 9 }
    s.cfg.valid = true ∧ s.tstate = .fineTune ∧ s.enQ = true ∧
    (after (.tick true) s).map (fun t => (t.slope, t.yint, t.trim)) = some (0x40200000, 9, 32490) := by decide

theorem witness_CalibrationLineFrame :
    (after (.supervise false) { running 0x42 [] with slope := 0x40200000 }).map State.slope = some 0x40200000 := by decide

/-! Supervisory Loop -/

/-- SV-8. -/
theorem witness_TamerInitSequence :
    (bench 0x41 []).cfg.valid = true ∧ ShadowOk (bench 0x41 []).ctrl ∧
    after .tamerInit (bench 0x01 []) = some { bench 0x42 [] with
      trace := [.write 0 0x01, .write 0 0x41, .write 0 0x41, .write 0 0x40, .write 0 0x42, .write 2 0x00] } :=
  ⟨by decide, shadow_41, by decide⟩

/-- SV-9. -/
theorem witness_TamerDisableSequence :
    (bench 0x82 []).cfg.valid = true ∧ ShadowOk (bench 0x82 []).ctrl ∧
    after .tamerDisable (bench 0x82 []) = some { bench 0x01 [] with
      trace := [.write 0 0x80, .write 0 0x00, .write 0 0x01] } :=
  ⟨by decide, shadow_82, by decide⟩

/-- SV-1, SV-2 and SV-5: the two edges, and no edge. -/
theorem witness_SuperviseEdges :
    (bench 0x00 []).cfg.valid = true ∧ (bench 0x00 []).enQ = false ∧ (readyIn .fineTune 0x41 1).enQ = true ∧
    after (.supervise true) (bench 0x00 []) = some { readyIn .coarseTuneMin 0x42 0 with
      trace := [.write 0 0x00, .write 0 0x40, .write 0 0x41, .write 0 0x40, .write 0 0x42, .write 2 0x00] } ∧
    after (.supervise false) (readyIn .fineTune 0x41 1) = some { bench 0x01 [] with
      e1 := 1, trace := [.write 0 0x41, .write 0 0x01, .write 0 0x01] } ∧
    after (.supervise true) (running 0x01 []) = some (running 0x01 []) := by decide

/-- SV-6. -/
theorem witness_TickIsSupervisePollStep :
    (bench 0x00 [0x00]).cfg.valid = true ∧
    (after (.tick true) (bench 0x00 [0x00])).map (fun t => (t.tstate, t.ready, t.trace)) =
      some (.coarseTuneMax, false, [.write 0 0x00, .write 0 0x40, .write 0 0x41, .write 0 0x40, .write 0 0x42,
        .write 2 0x00, .read 1 0x00, .write 3 0x00, .write 4 0x00, .write 0 0x43, .write 0 0x42, .write 0 0x42]) := by
  decide

theorem witness_UngatedTickLeavesNoRecord :
    (bench 0x00 [0x00]).cfg.valid = true ∧
    Config.valid { Config.default with runWhileDisabled := true } = true := by decide

/-- SV-7, and the falling edge. -/
theorem witness_DisabledTickOnlySupervises :
    (bench 0x00 []).cfg.valid = true ∧ (bench 0x00 []).cfg.runWhileDisabled = false ∧
    after (.tick false) (bench 0x00 []) = some (bench 0x00 []) ∧
    (after (.tick false) (running 0x42 [])).map State.ctrl = some 0x01 := by decide

/-- L1-6, P2 steps 2 to 8: a pending record of FineTune is never consumed. -/
theorem witness_DisableDiscardsThePendingRecord :
    (readyIn .fineTune 0x41 20).enQ = true ∧
    (((after (.supervise false) (readyIn .fineTune 0x41 20)).bind (after (.supervise true))).bind
      (after .fsmCoarseMin)).map (fun t => (t.tstate, t.ready, t.trim)) = some (.coarseTuneMax, false, 0) := by decide

theorem witness_CoarseMinReadsNoRecordData :
    (readyIn .coarseTuneMin 0x42 5).tstate = .coarseTuneMin ∧
    (after (.fsmRow .coarseTuneMin) (readyIn .coarseTuneMin 0x42 5)).map State.e1 = some 5 := by decide

/-- P6 step 2. -/
theorem witness_RunningWhileDisabled :
    let s := { bench 0x00 [0x08, 0, 0, 0, 0, 0, 0, 0, 0, 0, 0, 0, 0, 0x08] with
      cfg := { Config.default with runWhileDisabled := true } }
    s.cfg.valid = true ∧ s.cfg.runWhileDisabled = true ∧ s.enQ = false ∧ ShadowOk s.ctrl ∧ ctrlTuneMode s.ctrl = 0b00 ∧
    s.env.answers = 0x08 :: [0, 0, 0, 0, 0, 0, 0, 0, 0, 0, 0, 0, 0x08] ∧ (0x08 : Byte) ≠ 0 ∧
    (after (.tick false) s).map (fun t => (t.ctrl, t.trim, t.tstate)) = some (0x02, 0, .coarseTuneMax) :=
  ⟨by decide, by decide, by decide, shadow_00, by decide, by decide, by decide, by decide⟩

/-! The bus -/

theorem witness_OwnAccessesOnly :
    (after .clearIsr (bench 0x41 [])).map State.trace = some [.write 0 0x45] ∧ Instr.clearIsr ≠ .regRead 0 ∧
    Instr.clearIsr ≠ .regWrite 0 0 ∧ Instr.clearIsr ≠ .readCount 0 := by decide

/-- The byte of CLEAR_ISR, and CAPTURE's last. -/
theorem witness_OwnControlBytes :
    ShadowOk (bench 0x41 mc3).ctrl ∧ Instr.clearIsr ≠ .powerOnReset ∧ Instr.clearIsr ≠ .regWrite 0 0x45 ∧
    (after .clearIsr (bench 0x41 mc3)).map State.trace = some [.write 0 0x45] ∧
    (after .capture (bench 0x41 mc3)).map (fun t => t.trace.getLast?) = some (some (.write 0 0x45)) :=
  ⟨shadow_41, by decide, by decide, by decide, by decide⟩

/-- RI-2, then RI-4's flush. -/
theorem witness_DirectControlWriteLastsUntilTheNextFlush :
    (0 : BitVec 8).toNat = (bench 0x43 []).cfg.idxCtrl ∧
    (after (.regWrite 0 0x86) (bench 0x43 [])).map (fun t => (t.ctrl, t.trace)) = some (0x43, [.write 0 0x86]) ∧
    ((after (.regWrite 0 0x86) (bench 0x43 [])).bind (after (.resetCounters true))).map State.trace =
      some [.write 0 0x86, .write 0 0x43] := by decide

/-- A state that meets the invariant and has a transaction, at the last index of the last admitted window. -/
theorem witness_AccessesAreAligned :
    let s := { running 0x42 [] with
      cfg := { Config.default with base := 4294966272 }, trace := [.read 255 0] }
    s.Inv ∧ s.cfg.regAddr 255 = 4294967292 :=
  ⟨⟨by decide, shadow_42, ⟨by decide, by decide⟩, by decide, fun t ht => by
    rw [List.mem_singleton.1 ht]; decide⟩, by decide⟩

/-- R263: POLL's 14 reads and 3 writes. -/
theorem witness_TransactionCounts :
    (after .poll (running 0x42 ([0x01] ++ mc3))).map (fun t => (readCountOf t.trace, writeCountOf t.trace)) =
      some (14, 3) ∧ Instr.poll ≠ .powerOnReset := by decide

end Sys2Proof.Tests
end

/-! The exact values behind the numeric primitives of 00_scope.md R11, and what their rounding guarantees. -/

namespace Sys2Proof.Machine

/-! The exact fraction that is rounded -/

/-- The exact fraction `± n / d` that `f32OfRatio neg n d` rounds. -/
def signedRatio (neg : Bool) (n d : Nat) : Rat := (if neg then -1 else 1) * ((n : Rat) / d)

theorem f32Value_eq_signedRatio (x : F32) : f32Value x = signedRatio x.sign (f32Num x) (f32Den x) := rfl

theorem signedRatio_false (n d : Nat) : signedRatio false n d = (n : Rat) / d := one_mul _

theorem signedRatio_true (n d : Nat) : signedRatio true n d = -((n : Rat) / d) := neg_one_mul _

theorem abs_signedRatio (neg : Bool) (n d : Nat) : |signedRatio neg n d| = (n : Rat) / d := by
  have h : |(n : Rat) / d| = (n : Rat) / d := abs_of_nonneg (by positivity)
  cases neg
  · rw [signedRatio_false, h]
  · rw [signedRatio_true, abs_neg, h]

theorem abs_signedRatio_sub (neg : Bool) (n d m c : Nat) :
    |signedRatio neg n d - signedRatio neg m c| = |(n : Rat) / d - (m : Rat) / c| := by
  cases neg
  · rw [signedRatio_false, signedRatio_false]
  · rw [signedRatio_true, signedRatio_true, neg_sub_neg, abs_sub_comm]

theorem signedRatio_mul (p q : Bool) (n d m c : Nat) :
    signedRatio p n d * signedRatio q m c = signedRatio (p ^^ q) (n * m) (d * c) := by
  cases p <;> cases q <;> simp [signedRatio, mul_div_mul_comm]

theorem signedRatio_div (p q : Bool) (n d m c : Nat) :
    signedRatio p n d / signedRatio q m c = signedRatio (p ^^ q) (n * c) (d * m) := by
  cases p <;> cases q <;> simp [signedRatio, div_div_div_eq, neg_div, div_neg]

theorem intCast_eq_signedRatio (n : Int) : (n : Rat) = signedRatio (decide (n < 0)) n.natAbs 1 := by
  rcases lt_or_ge n 0 with h | h
  · simp [signedRatio_true, h, Nat.cast_natAbs, abs_of_neg]
  · simp [signedRatio_false, h.not_gt, Nat.cast_natAbs, abs_of_nonneg h]

theorem f32Num_pos_of_value_ne_zero {x : F32} (h : f32Value x ≠ 0) : 0 < f32Num x := by
  refine Nat.pos_of_ne_zero fun h0 => h ?_
  simp [f32Value, h0]

theorem f32Mul_of_finite {a b : F32} (ha : F32.isFinite a = true) (hb : F32.isFinite b = true) :
    f32Mul a b = f32OfRatio (a.sign ^^ b.sign) (f32Num a * f32Num b) (f32Den a * f32Den b) := by
  simp [f32Mul, ha, hb]

theorem f32Div_of_finite {a b : F32} (ha : F32.isFinite a = true) (hb : F32.isFinite b = true) (h0 : f32Value b ≠ 0) :
    f32Div a b = f32OfRatio (a.sign ^^ b.sign) (f32Num a * f32Den b) (f32Den a * f32Num b) := by
  simp [f32Div, ha, hb, (f32Num_pos_of_value_ne_zero h0).ne']

/-- A property that rounding gives every pair of an exact fraction and its rounded pattern holds of the three operations of
R11: each is one rounding of the exact result. -/
theorem forall_operation_of_forall_ratio {P : Rat → F32 → Prop}
    (h : ∀ (neg : Bool) (n d : Nat), 0 < d → P (signedRatio neg n d) (f32OfRatio neg n d)) :
    (∀ n : Int, P n (toF32 n)) ∧
    (∀ a b : F32, F32.isFinite a = true → F32.isFinite b = true → P (f32Value a * f32Value b) (f32Mul a b)) ∧
    (∀ a b : F32, F32.isFinite a = true → F32.isFinite b = true → f32Value b ≠ 0 →
      P (f32Value a / f32Value b) (f32Div a b)) := by
  refine ⟨fun n => ?_, fun a b ha hb => ?_, fun a b ha hb h0 => ?_⟩
  · rw [intCast_eq_signedRatio]
    exact h _ _ _ one_pos
  · rw [f32Mul_of_finite ha hb, f32Value_eq_signedRatio a, f32Value_eq_signedRatio b, signedRatio_mul]
    exact h _ _ _ (Nat.mul_pos (f32Den_pos a) (f32Den_pos b))
  · rw [f32Div_of_finite ha hb h0, f32Value_eq_signedRatio a, f32Value_eq_signedRatio b, signedRatio_div]
    exact h _ _ _ (Nat.mul_pos (f32Den_pos a) (f32Num_pos_of_value_ne_zero h0))

/-! Overflow -/

theorem f32OfRatio_finite_iff (neg : Bool) (n : Nat) {d : Nat} (hd : 0 < d) :
    F32.isFinite (f32OfRatio neg n d) = true ↔ |signedRatio neg n d| < 2 ^ 128 - 2 ^ 103 := by
  rw [f32OfRatio_finite, f32Magnitude_finite_iff hd, abs_signedRatio]

/-- Settles O60: each operation is one rounding of an exact fraction, which is finite exactly below the threshold. -/
theorem binaryArithmeticOverflowsOnlyPastTheLargest : Obligations.BinaryArithmeticOverflowsOnlyPastTheLargest :=
  forall_operation_of_forall_ratio (P := fun v r => F32.isFinite r = true ↔ |v| < 2 ^ 128 - 2 ^ 103)
    fun neg n _ hd => f32OfRatio_finite_iff neg n hd

/-! Nearest, ties to even -/

theorem f32Significand_lt (x : F32) : f32Significand x < 2 ^ 24 := by
  have hF : x.fracField < 2 ^ 23 := (x.extractLsb' 0 23).isLt
  unfold f32Significand
  split <;> omega

/-- Every pattern's value is an integer of at most 24 bits times a power of two, the smallest that of the subnormals. -/
theorem f32Value_on_grid (x : F32) : ∃ T k : Int, f32Value x = T * 2 ^ k ∧ |T| < 2 ^ 24 ∧ -149 ≤ k := by
  have hS : |(f32Significand x : Int)| < 2 ^ 24 := by
    rw [Nat.abs_cast]
    exact_mod_cast f32Significand_lt x
  have hmag : (f32Num x : Rat) / f32Den x = f32Significand x * 2 ^ ((max x.expField 1 : Int) - 150) := by
    have hup : ((max x.expField 1 : Int) - 150).toNat = max x.expField 1 - 150 := by omega
    have hdown : (-((max x.expField 1 : Int) - 150)).toNat = 150 - max x.expField 1 := by omega
    rw [two_zpow_eq, hup, hdown, f32Num, f32Den, ← mul_div_assoc]
    push_cast
    rfl
  have hk : -149 ≤ (max x.expField 1 : Int) - 150 := by omega
  rw [f32Value_eq_signedRatio]
  cases x.sign
  · exact ⟨f32Significand x, _, by rw [signedRatio_false, hmag]; rfl, hS, hk⟩
  · exact ⟨-f32Significand x, _, by rw [signedRatio_true, hmag]; push_cast; ring, by rwa [abs_neg], hk⟩

theorem f32Value_f32OfRatio_zero (neg : Bool) (d : Nat) : f32Value (f32OfRatio neg 0 d) = 0 := by
  have h : f32Num (f32OfRatio neg 0 d) = 0 := by
    simp only [f32OfRatio, f32Magnitude, if_pos]
    cases neg <;> decide
  simp [f32Value, h]

/-- `f32OfRatio` in signed form: a finite result is a multiple `N` of the last place `2 ^ e`, within half a place of the exact
fraction and even at exactly half; the exact fraction fills 24 bits unless the place is the subnormals'. -/
theorem f32OfRatio_spec (neg : Bool) (n : Nat) {d : Nat} (hd : 0 < d) (h : F32.isFinite (f32OfRatio neg n d) = true) :
    ∃ N e : Int, f32Value (f32OfRatio neg n d) = N * 2 ^ e ∧ (e = -149 ∨ 2 ^ 23 ≤ |signedRatio neg n d / 2 ^ e|) ∧
    |N - signedRatio neg n d / 2 ^ e| ≤ 1 / 2 ∧
    (|N - signedRatio neg n d / 2 ^ e| = 1 / 2 → (f32OfRatio neg n d).getLsbD 0 = false) := by
  rcases Nat.eq_zero_or_pos n with rfl | hn
  · exact ⟨0, -149, by simp [f32Value_f32OfRatio_zero], .inl rfl, by simp [signedRatio], by simp [signedRatio]⟩
  · obtain ⟨M, hval, -, -, hbit, hhalf, hodd⟩ := f32OfRatio_value neg hn hd ((f32OfRatio_finite _ _ _).1 h)
    have hfull := (f32Exponent_spec hn hd).2.imp_right And.right
    have heven : |(M : Rat) - (n : Rat) / d / 2 ^ f32Exponent n d| = 1 / 2 → (f32OfRatio neg n d).getLsbD 0 = false :=
      fun he => by rw [hbit, decide_eq_false_iff_not, hodd he]; decide
    have habs : |signedRatio neg n d / 2 ^ f32Exponent n d| = (n : Rat) / d / 2 ^ f32Exponent n d := by
      rw [abs_div, abs_signedRatio, abs_of_nonneg (by positivity)]
    rw [← habs] at hfull
    rw [f32Value_eq_signedRatio, f32OfRatio_sign]
    cases neg
    · refine ⟨M, f32Exponent n d, ?_, hfull, ?_⟩
      · rw [signedRatio_false, hval]; rfl
      · rw [signedRatio_false]
        exact ⟨hhalf, heven⟩
    · refine ⟨-M, f32Exponent n d, ?_, hfull, ?_⟩
      · rw [signedRatio_true, hval]; push_cast; ring
      · rw [signedRatio_true, show ((-M : Int) : Rat) - -((n : Rat) / d) / 2 ^ f32Exponent n d =
          -(M - (n : Rat) / d / 2 ^ f32Exponent n d) by push_cast; ring, abs_neg]
        exact ⟨hhalf, heven⟩

/-- A binary32 value other than the integer `N` nearest to `x` (all in units of `2 ^ e`) is at least one half from `x`: on a
place as coarse as `2 ^ e` it is another integer, on a finer one it is below the 24 bits that `x` fills. -/
theorem half_le_abs_sub {x : Rat} {N T e k : Int} (hT : |T| < 2 ^ 24) (hk : -149 ≤ k) (hx : e = -149 ∨ 2 ^ 23 ≤ |x|)
    (hN : |N - x| ≤ 1 / 2) (hne : (T : Rat) * 2 ^ k ≠ N * 2 ^ e) : 1 / 2 ≤ |x - T * 2 ^ k / 2 ^ e| := by
  have hscale : (T : Rat) * 2 ^ k / 2 ^ e = T * 2 ^ (k - e) := by rw [zpow_sub₀ two_ne_zero, mul_div_assoc]
  rcases le_or_gt e k with hek | hek
  · obtain ⟨j, hj⟩ := Int.eq_ofNat_of_zero_le (sub_nonneg.2 hek)
    have hint : (T : Rat) * 2 ^ k / 2 ^ e = (T * 2 ^ j : Int) := by
      rw [hscale, hj]; push_cast; rfl
    have hdist : (1 : Rat) ≤ |(N : Rat) - (T * 2 ^ j : Int)| := by
      have hNT : N - T * 2 ^ j ≠ 0 := fun h0 => hne <| by
        rw [← div_eq_iff (by positivity), hint, ← sub_eq_zero.1 h0]
      exact_mod_cast Int.one_le_abs hNT
    rw [hint]
    linarith [abs_sub_le (N : Rat) x (T * 2 ^ j : Int)]
  · have hfull : 2 ^ 23 ≤ |x| := hx.resolve_left (by omega)
    have hsmall : |(T : Rat) * 2 ^ (k - e)| ≤ 2 ^ 23 - 1 / 2 := by
      have hT' : |(T : Rat)| ≤ 2 ^ 24 - 1 := by exact_mod_cast Int.le_sub_one_of_lt hT
      have hpow : (2 : Rat) ^ (k - e) ≤ 2 ^ (-1 : Int) := zpow_le_zpow_right₀ (by norm_num) (by omega)
      calc |(T : Rat) * 2 ^ (k - e)| = |(T : Rat)| * 2 ^ (k - e) := by rw [abs_mul, abs_zpow, abs_two]
        _ ≤ (2 ^ 24 - 1) * 2 ^ (-1 : Int) := mul_le_mul hT' hpow (by positivity) (by norm_num)
        _ = 2 ^ 23 - 1 / 2 := by norm_num
    rw [hscale]
    linarith [abs_sub_abs_le_abs_sub x (T * 2 ^ (k - e))]

/-- R11's rule for the rounding of `v` to `r`, against the candidate `y`: when `r` is finite, `y` is no nearer to `v`, and if
it is another value as near, the last bit of `r` is 0. -/
def RoundsNearestEven (y : F32) (v : Rat) (r : F32) : Prop :=
  F32.isFinite r = true → |v - f32Value r| ≤ |v - f32Value y| ∧
    (|v - f32Value r| = |v - f32Value y| → f32Value y ≠ f32Value r → r.getLsbD 0 = false)

theorem f32OfRatio_roundsNearestEven (y : F32) (neg : Bool) (n : Nat) {d : Nat} (hd : 0 < d) :
    RoundsNearestEven y (signedRatio neg n d) (f32OfRatio neg n d) := by
  intro h
  obtain ⟨N, e, hval, hfull, hhalf, heven⟩ := f32OfRatio_spec neg n hd h
  obtain ⟨T, k, hy, hT, hk⟩ := f32Value_on_grid y
  have hp : (0 : Rat) < 2 ^ e := by positivity
  have hplace : ∀ t : Rat, |signedRatio neg n d - t| = |signedRatio neg n d / 2 ^ e - t / 2 ^ e| * 2 ^ e := by
    intro t
    rw [← sub_div, abs_div, abs_of_pos hp, div_mul_cancel₀ _ hp.ne']
  rw [hval, hy, hplace, hplace, mul_div_cancel_right₀ _ hp.ne', abs_sub_comm _ (N : Rat)]
  by_cases hne : (T : Rat) * 2 ^ k = N * 2 ^ e
  · rw [hne, mul_div_cancel_right₀ _ hp.ne', abs_sub_comm _ (N : Rat)]
    exact ⟨le_rfl, fun _ hcon => absurd rfl hcon⟩
  · have hfar := half_le_abs_sub hT hk hfull hhalf hne
    refine ⟨mul_le_mul_of_nonneg_right (hhalf.trans hfar) hp.le, fun htie _ => heven (le_antisymm hhalf ?_)⟩
    rwa [mul_right_cancel₀ hp.ne' htie]

/-- Settles O33: each operation is one rounding of an exact fraction, to nearest and ties to even. -/
theorem binaryArithmeticIsNearestEven : Obligations.BinaryArithmeticIsNearestEven := by
  intro y _
  exact forall_operation_of_forall_ratio (P := RoundsNearestEven y)
    fun neg n _ hd => f32OfRatio_roundsNearestEven y neg n hd

/-! Rounding to an integer -/

/-- `divRoundHalfUp` is above the quotient by at most one half and below it by less than one half. -/
theorem divRoundHalfUp_spec (a : Nat) {b : Nat} (hb : 0 < b) :
    (divRoundHalfUp a b : Rat) - (a : Rat) / b ≤ 1 / 2 ∧ (a : Rat) / b - divRoundHalfUp a b < 1 / 2 := by
  have hbq : (0 : Rat) < b := by exact_mod_cast hb
  have hlo : (divRoundHalfUp a b : Rat) * (2 * b) ≤ 2 * a + b := by
    exact_mod_cast Nat.div_mul_le_self (2 * a + b) (2 * b)
  have hhi : 2 * (a : Rat) + b < (divRoundHalfUp a b + 1) * (2 * b) := by
    exact_mod_cast Nat.lt_mul_of_div_lt (Nat.lt_succ_self _) (by omega : 0 < 2 * b)
  have hq : (a : Rat) / b * b = a := div_mul_cancel₀ _ hbq.ne'
  generalize (a : Rat) / b = q at *
  generalize (divRoundHalfUp a b : Rat) = r at *
  constructor <;> nlinarith

/-- `round` of a finite value has the value's sign and the rounded magnitude. -/
theorem roundF32_eq_signedRatio {x : F32} (h : F32.isFinite x = true) :
    (roundF32 x : Rat) = signedRatio x.sign (divRoundHalfUp (f32Num x) (f32Den x)) 1 := by
  rw [roundF32, if_pos h]
  cases x.sign <;> simp [signedRatio]

/-- Settles O34: the magnitude is rounded half up and the sign kept. -/
theorem roundIsHalfAwayFromZero : Obligations.RoundIsHalfAwayFromZero := by
  intro x hx
  obtain ⟨hup, hdown⟩ := divRoundHalfUp_spec (f32Num x) (f32Den_pos x)
  rw [roundF32_eq_signedRatio hx, f32Value_eq_signedRatio, abs_signedRatio_sub, abs_signedRatio, abs_signedRatio,
    Nat.cast_one, div_one]
  refine ⟨abs_le.2 ⟨by linarith, hup⟩, fun htie => ?_⟩
  rcases (abs_eq (by norm_num)).1 htie with h | h <;> linarith

end Sys2Proof.Machine

/-! The state of the block (10_state.md): what one step runs, which fields each operation writes, the transactions it
performs, and the invariant of section 1. -/

namespace Sys2Proof.Machine

open Observe

/-! The word a step runs -/

theorem nextOpWord_of_pending {s : State} {w : OpWord} {rest : List OpWord} (h : s.env.pending = w :: rest) :
    nextOpWord s = (w, { s with env := { s.env with pending := rest } }) := by
  simp [nextOpWord, h]

theorem nextOpWord_of_idle {s : State} (h : s.env.pending = []) :
    nextOpWord s = (encode (.tick (Config.enableSample s.env.samples s.trace)),
      { s with env := { s.env with samples := s.env.samples + 1 } }) := by
  simp [nextOpWord, h]

theorem decode_encode_tick (ts : TuneState) (en : Bool) : decode ts (encode (.tick en)) = .ok (.tick en) := by
  cases en <;> rfl

theorem step_of_decode {s : State} {i : Instr} (h : decode s.tstate (nextOpWord s).1 = .ok i) :
    step s = exec i (nextOpWord s).2 := by
  simp [step, h]

/-- Settles O5: the next word is the oldest pending one, or the encoded TICK, which decodes to itself. -/
theorem stepRunsDecodedOperation : Obligations.StepRunsDecodedOperation := by
  intro s i
  constructor
  · intro w rest hq hd
    rw [step_of_decode (i := i) (by rwa [nextOpWord_of_pending hq]), nextOpWord_of_pending hq]
  · intro hq
    have hd : decode s.tstate (nextOpWord s).1 = .ok (.tick (Config.enableSample s.env.samples s.trace)) := by
      rw [nextOpWord_of_idle hq]
      exact decode_encode_tick _ _
    rw [step_of_decode hd, nextOpWord_of_idle hq]

/-- A step that answers a next state ran the operation its word decodes to. -/
theorem exists_exec_of_step {s t : State} (h : step s = .next t) : ∃ i, exec i (nextOpWord s).2 = .next t := by
  cases hd : decode s.tstate (nextOpWord s).1 with
  | ok i => exact ⟨i, by rwa [step_of_decode hd] at h⟩
  | error e => simp [step, hd] at h

/-! What an operation may write -/

/-- What each operation writes: the composite operations by name, and of every other one whether it is a DAC write or
touches only the shadow and what is outside the block's registers. -/
inductive EffectCase (s : State) : Instr → Prop
  /-- At most the shadow, the trace, the returned value and the environment change. -/
  | control {i : Instr} (c : Byte) (tr : List Txn) (r : Option Returned) (e : Environment)
      (h : effect i s = { s with ctrl := c, trace := tr, ret := r, env := e }) : EffectCase s i
  /-- The effect is one DAC write. -/
  | dac {i : Instr} (v : U16) (h : effect i s = dacWrite v s) : EffectCase s i
  | calCompute : EffectCase s .calCompute
  | capture : EffectCase s .capture
  | poll : EffectCase s .poll
  | fsmStep (ts : TuneState) : EffectCase s (.fsmRow ts)
  | supervise (en : Bool) : EffectCase s (.supervise en)
  | tick (en : Bool) : EffectCase s (.tick en)
  | powerOnReset : EffectCase s .powerOnReset

theorem effectCase (i : Instr) (s : State) : EffectCase s i := by
  cases i with
  | regWrite | regRead | clearIsr => exact .control _ _ _ _ rfl
  | resetCounters b => exact .control _ _ _ _ (resetCounters_eq b s)
  | enableIsr b => exact .control _ _ _ _ (enableIsr_eq b s)
  | rearm => exact .control _ _ _ _ (rearm_eq s)
  | readCount idx =>
    obtain ⟨b0, b1, b2, b3, h, -⟩ := readCount_spec idx.toNat s
    exact .control _ _ _ _ (by simp only [effect, h]; rfl)
  | setTuneMode m =>
    obtain ⟨c, tr, h⟩ := setTuneMode_frame m s
    exact .control c tr s.ret s.env h
  | tamerInit =>
    obtain ⟨c, tr, h⟩ := setTuneMode_frame (modeCode .onePPS) s
    exact .control c _ s.ret s.env (congrArg (regWrite s.cfg.idxState Config.stateValInit) h)
  | tamerDisable =>
    obtain ⟨c, tr, h⟩ := setTuneMode_frame (modeCode .disabled) s
    exact .control c tr s.ret s.env h
  | dacWrite v => exact .dac v rfl
  | fineCorrect =>
    rcases fineCorrect_cases s with ⟨-, -, -, h⟩ | ⟨-, v, h, -⟩
    · exact .control _ _ _ _ h
    · exact .dac v h
  | calCompute => exact .calCompute
  | capture => exact .capture
  | poll => exact .poll
  | fsmCoarseMin => exact .fsmStep .coarseTuneMin
  | fsmCoarseMax => exact .fsmStep .coarseTuneMax
  | fsmCoarseDone => exact .fsmStep .coarseTuneDone
  | fsmFineTune => exact .fsmStep .fineTune
  | supervise en => exact .supervise en
  | tick en => exact .tick en
  | powerOnReset => exact .powerOnReset

/-- Settles O28: of the operations left only FSM_STEP and SUPERVISE write the ready flag, and none writes the rest. -/
theorem recordIsWrittenOnlyByCapture : Obligations.RecordIsWrittenOnlyByCapture := by
  intro i s t h hi htick
  obtain ⟨-, -, rfl⟩ := exec_eq_next.1 h
  cases effectCase i s with
  | control c tr r e he => simp [he]
  | dac v he => simp [he, dacWrite_spec]
  | calCompute =>
    obtain ⟨m, y, he, -⟩ := calCompute_eq s
    simp [effect, he]
  | fsmStep ts =>
    obtain ⟨r, c, v, x0, x1, y0, y1, m, y, ts', tr, he⟩ := fsmStep_frame s
    simp [he]
  | supervise en =>
    obtain ⟨c, tr, ts, r, he, -⟩ := supervise_frame en s
    simp [effect, he]
  | capture | poll | powerOnReset => simp at hi
  | tick en => exact absurd rfl (htick en)

/-- Settles O45: none of the operations left writes the line; SUPERVISE on an edge writes the shadow, the mailbox flag, the
TuneState and the latched level. -/
theorem calibrationLineFrame : Obligations.CalibrationLineFrame := by
  intro i s t h hcal hreset hfsm htick
  obtain ⟨-, -, rfl⟩ := exec_eq_next.1 h
  cases effectCase i s with
  | control c tr r e he => simp [he]
  | dac v he => simp [he, dacWrite_spec]
  | capture =>
    obtain ⟨c, e1, e10, e100, f1, f10, f100, tr, env, he⟩ := capture_frame s
    simp [effect, he]
  | poll =>
    obtain ⟨c, e1, e10, e100, f1, f10, f100, r, tr, env, he, -⟩ := poll_frame s
    simp [effect, he]
  | supervise en =>
    obtain ⟨c, tr, ts, r, he, -⟩ := supervise_frame en s
    simp [effect, he]
  | calCompute => exact absurd rfl hcal
  | powerOnReset => exact absurd rfl hreset
  | fsmStep ts => exact absurd rfl (hfsm ts)
  | tick en => exact absurd rfl (htick en)

/-! The DAC registers hold the trim -/

/-- R23, R132: the word on the two DAC registers is the trim. -/
def DacHoldsTrim (s : State) : Prop := dacWord s.cfg s.trace = some s.trim

theorem dacWrite_dacHoldsTrim {s : State} (hv : s.cfg.valid = true) (v : U16) : DacHoldsTrim (dacWrite v s) := by
  rw [dacWrite_spec]
  exact dacWord_append_dacWrites hv s.trace v

/-- A write of another register leaves the DAC as it is. -/
theorem regWrite_dacHoldsTrim {s : State} {idx : Nat} {b : Byte} (h : DacHoldsTrim s) (hlo : idx ≠ s.cfg.idxDacLo)
    (hhi : idx ≠ s.cfg.idxDacHi) : DacHoldsTrim (regWrite idx b s) := by
  rw [DacHoldsTrim, regWrite_trace, regWrite_cfg, dacWord, lastWrite_append_other hhi, lastWrite_append_other hlo]
  exact h

theorem resetCounters_dacHoldsTrim {s : State} (h : DacHoldsTrim s) (hv : s.cfg.valid = true) (b : Bool) :
    DacHoldsTrim (resetCounters b s) := by
  obtain ⟨-, hlo, hhi, -⟩ := Config.written_indices_distinct hv
  exact regWrite_dacHoldsTrim (s := { s with ctrl := withReset s.ctrl b }) h hlo hhi

theorem enableIsr_dacHoldsTrim {s : State} (h : DacHoldsTrim s) (hv : s.cfg.valid = true) (b : Bool) :
    DacHoldsTrim (enableIsr b s) := by
  obtain ⟨-, hlo, hhi, -⟩ := Config.written_indices_distinct hv
  exact regWrite_dacHoldsTrim (s := { s with ctrl := withIrqEnable s.ctrl b }) h hlo hhi

theorem rearm_dacHoldsTrim {s : State} (h : DacHoldsTrim s) (hv : s.cfg.valid = true) : DacHoldsTrim (rearm s) :=
  enableIsr_dacHoldsTrim (resetCounters_dacHoldsTrim h hv false) hv true

/-- Each coarse arm drives the DAC, and the FINE_TUNE arm does when it corrects. -/
theorem fsmArm_trim_or_dacHoldsTrim {s : State} (hv : s.cfg.valid = true) :
    (fsmArm s).trim = s.trim ∨ DacHoldsTrim (fsmArm s) := by
  unfold fsmArm
  cases s.tstate with
  | coarseTuneMin => exact .inr (resetCounters_dacHoldsTrim (dacWrite_dacHoldsTrim hv _) hv true)
  | coarseTuneMax => exact .inr (resetCounters_dacHoldsTrim (dacWrite_dacHoldsTrim hv _) hv true)
  | coarseTuneDone =>
    obtain ⟨m, y, he, -⟩ := calCompute_eq { s with x1 := s.e1, y1 := u16OfNat s.cfg.trimdacMax }
    obtain ⟨-, -, -, hlo, hhi, -⟩ := Config.written_indices_distinct hv
    right
    simp only [coarseDoneArm, he]
    exact regWrite_dacHoldsTrim (dacWrite_dacHoldsTrim hv y) hlo hhi
  | fineTune =>
    rcases fineCorrect_cases s with ⟨-, -, -, he⟩ | ⟨-, v, he, -⟩
    · exact .inl (congrArg State.trim he)
    · right
      simp only [fineTuneArm, he]
      exact dacWrite_dacHoldsTrim hv v

theorem fsmStep_trim_or_dacHoldsTrim {s : State} (hv : s.cfg.valid = true) :
    (fsmStep s).trim = s.trim ∨ DacHoldsTrim (fsmStep s) := by
  by_cases hact : s.ready = true ∧ Ungated s
  · have hcfg : (fsmArm { s with ready := false }).cfg = s.cfg := by
      obtain ⟨c, v, x0, x1, y0, y1, m, y, ts, tr, he⟩ := fsmArm_frame { s with ready := false }
      rw [he]
    rw [fsmStep_of_ready hact.2 hact.1]
    exact (fsmArm_trim_or_dacHoldsTrim (s := { s with ready := false }) hv).imp id
      fun h => rearm_dacHoldsTrim h (by rwa [hcfg])
  · exact .inl (congrArg State.trim (fsmStep_idle hact))

/-- The first two phases of TICK keep the configuration and the trim. -/
theorem poll_supervise_frame (en : Bool) (s : State) :
    (poll (supervise en s)).cfg = s.cfg ∧ (poll (supervise en s)).trim = s.trim := by
  obtain ⟨c, e1, e10, e100, f1, f10, f100, r, tr, env, hp, -⟩ := poll_frame (supervise en s)
  obtain ⟨c', tr', ts, r', hs, -⟩ := supervise_frame en s
  rw [hp, hs]
  exact ⟨rfl, rfl⟩

theorem effect_trim_or_dacHoldsTrim {s : State} (hv : s.cfg.valid = true) (i : Instr) :
    (effect i s).trim = s.trim ∨ DacHoldsTrim (effect i s) := by
  cases effectCase i s with
  | control c tr r e he => exact .inl (by rw [he])
  | dac v he => exact .inr (he ▸ dacWrite_dacHoldsTrim hv v)
  | calCompute =>
    obtain ⟨m, y, he, -⟩ := calCompute_eq s
    exact .inl (by simp [effect, he])
  | capture =>
    obtain ⟨c, e1, e10, e100, f1, f10, f100, tr, env, he⟩ := capture_frame s
    exact .inl (by simp [effect, he])
  | poll =>
    obtain ⟨c, e1, e10, e100, f1, f10, f100, r, tr, env, he, -⟩ := poll_frame s
    exact .inl (by simp [effect, he])
  | supervise en =>
    obtain ⟨c, tr, ts, r, he, -⟩ := supervise_frame en s
    exact .inl (by simp [effect, he])
  | fsmStep ts =>
    rw [effect_fsmRow]
    exact fsmStep_trim_or_dacHoldsTrim hv
  | tick en =>
    obtain ⟨hcfg, htrim⟩ := poll_supervise_frame en s
    rw [← htrim]
    exact fsmStep_trim_or_dacHoldsTrim (by rwa [hcfg])
  | powerOnReset =>
    right
    refine dacWrite_dacHoldsTrim ?_ _
    exact hv

/-- Settles O25: every write of the trim is a DAC write, and only CTRL and STATE are written after it. -/
theorem trimChangesReachTheDac : Obligations.TrimChangesReachTheDac := by
  intro i s t h hne
  obtain ⟨hv, -, rfl⟩ := exec_eq_next.1 h
  exact (effect_trim_or_dacHoldsTrim hv i).resolve_left hne

/-! The shadow is the control byte last written -/

/-- R21: the control register holds the shadow. -/
def ShadowWritten (s : State) : Prop := lastWrite s.cfg.idxCtrl s.trace = some s.ctrl

theorem flush_shadowWritten (s : State) : ShadowWritten (flush s) := lastWrite_append_same _ _ _

theorem resetCounters_shadowWritten (b : Bool) (s : State) : ShadowWritten (resetCounters b s) := flush_shadowWritten _

theorem enableIsr_shadowWritten (b : Bool) (s : State) : ShadowWritten (enableIsr b s) := flush_shadowWritten _

/-- R106: a recognised code ends in a flush, of RESET_COUNTERS or of ENABLE_ISR. -/
theorem setTuneMode_shadowWritten {m : BitVec 2} (hm : m = 0b00 ∨ m = 0b01 ∨ m = 0b10) (s : State) :
    ShadowWritten (setTuneMode m s) := by
  rcases hm with rfl | rfl | rfl
  · exact resetCounters_shadowWritten _ _
  · exact enableIsr_shadowWritten _ _
  · exact enableIsr_shadowWritten _ _

/-- R201: the STATE write comes after the mode change and is not one of CTRL. -/
theorem tamerInit_shadowWritten {s : State} (hv : s.cfg.valid = true) : ShadowWritten (tamerInit s) := by
  have hne : s.cfg.idxState ≠ s.cfg.idxCtrl := (Config.written_indices_distinct hv).1.symm
  exact (lastWrite_append_other hne _ _).trans (setTuneMode_shadowWritten (.inr (.inl rfl)) s)

/-- Settles O22: every mutator ends in a flush, but for TAMER_INIT's STATE write. -/
theorem shadowIsTheLastControlByte : Obligations.ShadowIsTheLastControlByte := by
  intro s hv
  refine ⟨fun i hi => ?_, _, exec_of_valid hv rfl, rfl, lastWrite_append_same _ _ _⟩
  simp only [List.mem_cons, List.not_mem_nil, or_false] at hi
  rcases hi with rfl | rfl | rfl | rfl | rfl | rfl | rfl | rfl | rfl | rfl <;> refine ⟨_, exec_of_valid hv rfl, ?_⟩
  · exact resetCounters_shadowWritten _ _
  · exact resetCounters_shadowWritten _ _
  · exact enableIsr_shadowWritten _ _
  · exact enableIsr_shadowWritten _ _
  · exact setTuneMode_shadowWritten (.inl rfl) s
  · exact setTuneMode_shadowWritten (.inr (.inl rfl)) s
  · exact setTuneMode_shadowWritten (.inr (.inr rfl)) s
  · exact enableIsr_shadowWritten _ _
  · exact tamerInit_shadowWritten hv
  · exact setTuneMode_shadowWritten (.inl rfl) s

/-! The transactions an operation performs -/

theorem calCompute_performs (s : State) : Performs s (calCompute s) [] := by
  obtain ⟨m, y, he, -⟩ := calCompute_eq s
  rw [he]
  exact Performs.refl s

theorem fineCorrect_performs (s : State) : ∃ l, Performs s (fineCorrect s) l := by
  rcases fineCorrect_cases s with ⟨-, -, -, he⟩ | ⟨-, v, he, -⟩ <;> rw [he]
  · exact ⟨_, .refl s⟩
  · exact ⟨_, dacWrite_performs v s⟩

theorem resetCounters_performs (b : Bool) (s : State) :
    Performs s (resetCounters b s) [ctrlWrite s.cfg (withReset s.ctrl b)] := regWrite_performs _ _ _

theorem fsmArm_performs (s : State) : ∃ l, Performs s (fsmArm s) l := by
  unfold fsmArm
  cases s.tstate with
  | coarseTuneMin => exact ⟨_, (dacWrite_performs _ s).trans (resetCounters_performs true _)⟩
  | coarseTuneMax =>
    exact ⟨_, (dacWrite_performs _ { s with x0 := s.e1, y0 := _ }).trans (resetCounters_performs true _)⟩
  | coarseTuneDone =>
    exact ⟨_, ((calCompute_performs { s with x1 := s.e1, y1 := _ }).trans (dacWrite_performs _ _)).trans
      (regWrite_performs _ _ _)⟩
  | fineTune => exact fineCorrect_performs s

theorem fsmStep_performs (s : State) : ∃ l, Performs s (fsmStep s) l := by
  by_cases hact : s.ready = true ∧ Ungated s
  · obtain ⟨l, h⟩ := fsmArm_performs { s with ready := false }
    rw [fsmStep_of_ready hact.2 hact.1]
    exact ⟨_, Performs.trans h (rearm_performs _)⟩
  · rw [fsmStep_idle hact]
    exact ⟨_, .refl s⟩

theorem capture_performs (s : State) : ∃ l, Performs s (capture s) l := by
  obtain ⟨a0, a1, a2, a3, b0, b1, b2, b3, c0, c1, c2, c3, st, l, -, -, h⟩ := capture_spec s
  exact ⟨l, h⟩

theorem poll_performs (s : State) : ∃ l, Performs s (poll s) l := by
  unfold poll
  split
  · exact ⟨_, .refl s⟩
  · have hstat := regRead_performs s.cfg.idxStat s
    dsimp only
    split
    · obtain ⟨l, h⟩ := capture_performs (regRead s.cfg.idxStat s).2
      exact ⟨_, hstat.trans h⟩
    · exact ⟨_, hstat⟩

theorem tamerInit_performs (s : State) : ∃ l, Performs s (tamerInit s) l := by
  obtain ⟨bs, h, -⟩ := setTuneMode_performs (modeCode .onePPS) s
  exact ⟨_, h.trans (regWrite_performs _ _ _)⟩

theorem tamerDisable_performs (s : State) : ∃ l, Performs s (tamerDisable s) l := by
  obtain ⟨bs, h, -⟩ := setTuneMode_performs (modeCode .disabled) s
  exact ⟨_, h⟩

theorem supervise_performs (en : Bool) (s : State) : ∃ l, Performs s (supervise en s) l := by
  unfold supervise superviseEdge
  split
  · exact tamerInit_performs s
  · split
    · exact tamerDisable_performs s
    · exact ⟨_, .refl s⟩

theorem tick_performs (en : Bool) (s : State) : ∃ l, Performs s (tick en s) l := by
  obtain ⟨a, ha⟩ := supervise_performs en s
  obtain ⟨b, hb⟩ := poll_performs (supervise en s)
  obtain ⟨c, hc⟩ := fsmStep_performs (poll (supervise en s))
  exact ⟨_, (ha.trans hb).trans hc⟩

/-- R35, R69, R75: every operation but POWER_ON_RESET is a run of bus transactions. -/
theorem effect_performs {i : Instr} (hi : i ≠ .powerOnReset) (s : State) : ∃ l, Performs s (effect i s) l := by
  cases i with
  | regWrite | resetCounters | enableIsr | clearIsr => exact ⟨_, regWrite_performs _ _ s⟩
  | regRead idx => exact ⟨_, regRead_performs idx.toNat s⟩
  | setTuneMode m =>
    obtain ⟨bs, h, -⟩ := setTuneMode_performs m s
    exact ⟨_, h⟩
  | readCount idx =>
    obtain ⟨b0, b1, b2, b3, -, h⟩ := readCount_spec idx.toNat s
    exact ⟨_, h⟩
  | dacWrite v => exact ⟨_, dacWrite_performs v s⟩
  | capture => exact capture_performs s
  | poll => exact poll_performs s
  | fsmCoarseMin | fsmCoarseMax | fsmCoarseDone | fsmFineTune => exact fsmStep_performs s
  | calCompute => exact ⟨_, calCompute_performs s⟩
  | fineCorrect => exact fineCorrect_performs s
  | rearm => exact ⟨_, rearm_performs s⟩
  | tamerInit => exact tamerInit_performs s
  | tamerDisable => exact tamerDisable_performs s
  | supervise en => exact supervise_performs en s
  | tick en => exact tick_performs en s
  | powerOnReset => exact absurd rfl hi

/-- Settles O12: `Performs` is the statement's conjunction. -/
theorem traceGrowsByTheAnswersRead : Obligations.TraceGrowsByTheAnswersRead := by
  intro i s t h hi
  obtain ⟨-, -, rfl⟩ := exec_eq_next.1 h
  exact effect_performs hi s

/-! The calibration is finite -/

/-- Settles O32: the slope is at most 2 ^ 17 in magnitude and an error count at most 2 ^ 31, far below overflow. -/
theorem calibrationIsFinite : Obligations.CalibrationIsFinite := by
  intro x0 x1 y0 y1 n hx
  obtain ⟨hfin, hle⟩ := lineSlope_finite y0 y1 hx
  exact ⟨hfin, f32Mul_toF32_finite n hfin hle⟩

/-! The invariant -/

/-- R60, R65: the registers the block names are in the window, each counter with its four bytes. -/
structure NamedIndicesInWindow (c : Config) : Prop where
  ctrl : c.idxCtrl ≤ 255
  stat : c.idxStat ≤ 255
  state : c.idxState ≤ 255
  dacLo : c.idxDacLo ≤ 255
  dacHi : c.idxDacHi ≤ 255
  err1s : c.idxErr1s ≤ 252
  err10s : c.idxErr10s ≤ 252
  err100s : c.idxErr100s ≤ 252

theorem namedIndicesInWindow {c : Config} (h : c.valid = true) : NamedIndicesInWindow c := by
  have hle := Config.indices_le_of_valid h
  simp only [Config.indices, List.forall_mem_cons] at hle
  constructor <;> omega

/-- A DAC parameter of R7 stays in the DAC's range when it is held as a `u16`. -/
theorem u16OfNat_le {n m : Nat} (hn : n ≤ m) (hm : m ≤ 65535) : (u16OfNat n).toNat ≤ m := by
  rwa [u16OfNat_toNat n (hn.trans hm)]

theorem ctrlByte_shadowOk {m : BitVec 2} (e r : Bool) (h : m ≠ 0b11) : ShadowOk (ctrlByte m e r) := by
  have fixed : ∀ m e r, ctrlIrqClear (ctrlByte m e r) = false ∧ ctrlReserved (ctrlByte m e r) = 0 := by decide
  obtain ⟨hclear, hreserved⟩ := fixed m e r
  exact ⟨hclear, hreserved, by rwa [ctrlTuneMode_ctrlByte]⟩

theorem withReset_shadowOk {c : Byte} (h : ShadowOk c) (b : Bool) : ShadowOk (withReset c b) := by
  obtain ⟨hclear, hreserved, hmode⟩ := h
  rw [withReset_of_shadow hclear hreserved]
  exact ctrlByte_shadowOk _ _ hmode

theorem withIrqEnable_shadowOk {c : Byte} (h : ShadowOk c) (b : Bool) : ShadowOk (withIrqEnable c b) := by
  obtain ⟨hclear, hreserved, hmode⟩ := h
  rw [withIrqEnable_of_shadow hclear hreserved]
  exact ctrlByte_shadowOk _ _ hmode

theorem withTuneMode_shadowOk {c : Byte} (h : ShadowOk c) {m : BitVec 2} (hm : m ≠ 0b11) :
    ShadowOk (withTuneMode c m) := by
  obtain ⟨hclear, hreserved, -⟩ := h
  rw [ctrlByte_of_shadow c hclear hreserved, withTuneMode_ctrlByte]
  exact ctrlByte_shadowOk _ _ hm

/-- The invariant reads six fields: a state that differs in others only has it too. -/
theorem State.Inv.congr {s t : State} (h : s.Inv) (hcfg : t.cfg = s.cfg := by rfl) (hctrl : t.ctrl = s.ctrl := by rfl)
    (htrim : t.trim = s.trim := by rfl) (hyint : t.yint = s.yint := by rfl) (hslope : t.slope = s.slope := by rfl)
    (htrace : t.trace = s.trace := by rfl) : t.Inv where
  cfg := by rw [hcfg]; exact h.cfg
  shadow := by rw [hctrl]; exact h.shadow
  dac := by rw [DacOk, htrim, hyint, hcfg]; exact h.dac
  slope := by rw [hslope]; exact h.slope
  window := by rw [TraceInWindow, htrace]; exact h.window

theorem traceInWindow_append {s t : State} {x : Txn} (h : TraceInWindow s) (ht : t.trace = s.trace ++ [x])
    (hx : x.idx ≤ 255) : TraceInWindow t := by
  intro y hy
  rw [ht, List.mem_append, List.mem_singleton] at hy
  rcases hy with hy | rfl
  · exact h y hy
  · exact hx

theorem regWrite_inv {s : State} (h : s.Inv) {idx : Nat} (hi : idx ≤ 255) (b : Byte) : (regWrite idx b s).Inv :=
  ⟨h.cfg, h.shadow, h.dac, h.slope, traceInWindow_append h.window (regWrite_trace idx b s) hi⟩

theorem regRead_inv {s : State} (h : s.Inv) {idx : Nat} (hi : idx ≤ 255) : (regRead idx s).2.Inv :=
  ⟨h.cfg, h.shadow, h.dac, h.slope, traceInWindow_append h.window (regRead_trace idx s) hi⟩

/-- A mutator of the shadow: it sets a byte that R22 allows and flushes it. -/
theorem flush_inv {s : State} (h : s.Inv) {c : Byte} (hc : ShadowOk c) : (flush { s with ctrl := c }).Inv :=
  regWrite_inv (s := { s with ctrl := c }) ⟨h.cfg, hc, h.dac, h.slope, h.window⟩ (namedIndicesInWindow h.cfg).ctrl c

theorem resetCounters_inv {s : State} (h : s.Inv) (b : Bool) : (resetCounters b s).Inv :=
  flush_inv h (withReset_shadowOk h.shadow b)

theorem enableIsr_inv {s : State} (h : s.Inv) (b : Bool) : (enableIsr b s).Inv :=
  flush_inv h (withIrqEnable_shadowOk h.shadow b)

theorem writeTuneMode_inv {s : State} (h : s.Inv) {m : BitVec 2} (hm : m ≠ 0b11) : (writeTuneMode m s).Inv :=
  flush_inv h (withTuneMode_shadowOk h.shadow hm)

theorem clearIsr_inv {s : State} (h : s.Inv) : (clearIsr s).Inv := regWrite_inv h (namedIndicesInWindow h.cfg).ctrl _

theorem rearm_inv {s : State} (h : s.Inv) : (rearm s).Inv := enableIsr_inv (resetCounters_inv h false) true

theorem changeTuneMode_inv {s : State} (h : s.Inv) (mode : TuneMode) : (changeTuneMode mode s).Inv := by
  have hcode : modeCode mode ≠ 0b11 := by cases mode <;> decide
  have held := resetCounters_inv (writeTuneMode_inv (enableIsr_inv h false) hcode) true
  unfold changeTuneMode
  dsimp only
  split
  · exact held
  · exact enableIsr_inv (resetCounters_inv held false) true

theorem setTuneMode_inv {s : State} (h : s.Inv) (m : BitVec 2) : (setTuneMode m s).Inv := by
  unfold setTuneMode
  split
  · exact h
  · exact changeTuneMode_inv h _

theorem readCount_inv {s : State} (h : s.Inv) {idx : Nat} (hi : idx ≤ 252) : (readCount idx s).2.Inv :=
  regRead_inv (regRead_inv (regRead_inv (regRead_inv h (idx := idx) (by omega)) (idx := idx + 1) (by omega))
    (idx := idx + 2) (by omega)) (idx := idx + 3) (by omega)

theorem dacWrite_inv {s : State} (h : s.Inv) {v : U16} (hv : v.toNat ≤ s.cfg.dacMax) : (dacWrite v s).Inv := by
  have hidx := namedIndicesInWindow h.cfg
  have htrim : State.Inv { s with trim := v } := ⟨h.cfg, h.shadow, ⟨hv, h.dac.2⟩, h.slope, h.window⟩
  exact regWrite_inv (regWrite_inv htrim hidx.dacLo _) hidx.dacHi _

/-- R28, R29: the calibration leaves a finite slope and an intercept in the DAC's range. -/
theorem calCompute_inv {s : State} (h : s.Inv) : (calCompute s).Inv := by
  obtain ⟨m, y, he, hy, hkept, hnew⟩ := calCompute_eq s
  have hm : F32.isFinite m = true := by
    by_cases hx : s.x1 = s.x0
    · rw [hkept hx]
      exact h.slope
    · rw [hnew hx]
      exact (lineSlope_finite s.y0 s.y1 hx).1
  rw [he]
  exact ⟨h.cfg, h.shadow, ⟨h.dac.1, hy h.cfg⟩, hm, h.window⟩

theorem fineCorrect_inv {s : State} (h : s.Inv) : (fineCorrect s).Inv := by
  rcases fineCorrect_cases s with ⟨-, -, -, he⟩ | ⟨-, v, he, hv⟩ <;> rw [he]
  · exact h
  · exact dacWrite_inv h (hv (Config.dac_of_valid h.cfg).2.1)

theorem fsmArm_inv {s : State} (h : s.Inv) : (fsmArm s).Inv := by
  obtain ⟨-, hmax, htmin, htmax, -⟩ := Config.dac_of_valid h.cfg
  unfold fsmArm
  cases s.tstate with
  | coarseTuneMin => exact (resetCounters_inv (dacWrite_inv h (u16OfNat_le htmin hmax)) true).congr
  | coarseTuneMax =>
    have hpoint : State.Inv { s with x0 := s.e1, y0 := u16OfNat s.cfg.trimdacMin } := h.congr
    exact (resetCounters_inv (dacWrite_inv hpoint (u16OfNat_le htmax hmax)) true).congr
  | coarseTuneDone =>
    have hline : (calCompute { s with x1 := s.e1, y1 := u16OfNat s.cfg.trimdacMax }).Inv := calCompute_inv h.congr
    exact (regWrite_inv (dacWrite_inv hline hline.dac.2) (namedIndicesInWindow hline.cfg).state _).congr
  | fineTune => exact fineCorrect_inv h

theorem fsmStep_inv {s : State} (h : s.Inv) : (fsmStep s).Inv := by
  by_cases hact : s.ready = true ∧ Ungated s
  · rw [fsmStep_of_ready hact.2 hact.1]
    exact rearm_inv (fsmArm_inv h.congr)
  · rwa [fsmStep_idle hact]

theorem readCounters_inv {s : State} (h : s.Inv) : (readCounters s).Inv := by
  have hidx := namedIndicesInWindow h.cfg
  have c1 := readCount_inv h hidx.err1s
  have c10 : (readCount s.cfg.idxErr10s { (readCount s.cfg.idxErr1s s).2 with e1 := _ }).2.Inv :=
    readCount_inv c1.congr hidx.err10s
  exact (readCount_inv c10.congr hidx.err100s).congr

theorem capture_inv {s : State} (h : s.Inv) : (capture s).Inv := by
  have hcount : (readCounters (freezeCounters s)).Inv :=
    readCounters_inv (resetCounters_inv (enableIsr_inv h false) true)
  have hflags : (readFlags (readCounters (freezeCounters s))).Inv :=
    (regRead_inv hcount (namedIndicesInWindow hcount.cfg).stat).congr
  exact (clearIsr_inv hflags).congr

theorem poll_inv {s : State} (h : s.Inv) : (poll s).Inv := by
  have hstat := regRead_inv h (namedIndicesInWindow h.cfg).stat
  unfold poll
  split
  · exact h
  · dsimp only
    split
    · exact capture_inv hstat
    · exact hstat

theorem tamerInit_inv {s : State} (h : s.Inv) : (tamerInit s).Inv :=
  regWrite_inv (setTuneMode_inv h _) (namedIndicesInWindow h.cfg).state _

theorem supervise_inv {s : State} (h : s.Inv) (en : Bool) : (supervise en s).Inv := by
  unfold supervise superviseEdge
  split
  · exact (tamerInit_inv h).congr
  · split
    · exact (setTuneMode_inv h _).congr
    · exact h.congr

theorem tick_inv {s : State} (h : s.Inv) (en : Bool) : (tick en s).Inv := fsmStep_inv (poll_inv (supervise_inv h en))

/-- R250: POWER_ON_RESET leaves the power-on state, but for what is not the block's (log entry 12). -/
theorem powerOnReset_eq (s : State) : powerOnReset s = { State.powerOn s.cfg with ret := s.ret, env := s.env } := by
  simp only [powerOnReset, dacWrite_spec, dacWrites_u16OfNat, List.nil_append]
  rfl

theorem powerOn_inv {c : Config} (hv : c.valid = true) : (State.powerOn c).Inv := by
  obtain ⟨-, hmax, -, -, hdefault, -⟩ := Config.dac_of_valid hv
  have hidx := namedIndicesInWindow hv
  refine ⟨hv, ctrlByte_shadowOk (m := 0) false false (by decide), ⟨u16OfNat_le hdefault hmax, Nat.zero_le _⟩,
    Config.slopePowerup_finite_of_valid hv, ?_⟩
  simp [TraceInWindow, State.powerOn, Txn.idx, hidx.dacLo, hidx.dacHi]

theorem default_valid : Config.default.valid = true := by decide

/-- Settles O10: the power-on state of any valid configuration meets the invariant. -/
theorem invariantAtReset : Obligations.InvariantAtReset := powerOn_inv default_valid

/-- An operation with permitted operands keeps the invariant. -/
theorem effect_inv {s : State} (h : s.Inv) {i : Instr} (hw : i.wellFormed s.cfg = true) : (effect i s).Inv := by
  cases i with
  | regWrite idx data => exact regWrite_inv h (Nat.le_of_lt_succ idx.isLt) data
  | regRead idx => exact (regRead_inv h (Nat.le_of_lt_succ idx.isLt)).congr
  | resetCounters b => exact resetCounters_inv h b
  | enableIsr b => exact enableIsr_inv h b
  | clearIsr => exact clearIsr_inv h
  | setTuneMode m => exact setTuneMode_inv h m
  | readCount idx => exact (readCount_inv h (of_decide_eq_true hw)).congr
  | dacWrite v => exact dacWrite_inv h (of_decide_eq_true hw)
  | capture => exact capture_inv h
  | poll => exact poll_inv h
  | fsmCoarseMin | fsmCoarseMax | fsmCoarseDone | fsmFineTune => exact fsmStep_inv h
  | calCompute => exact calCompute_inv h
  | fineCorrect => exact fineCorrect_inv h
  | rearm => exact rearm_inv h
  | tamerInit => exact tamerInit_inv h
  | tamerDisable => exact setTuneMode_inv h (modeCode .disabled)
  | supervise en => exact supervise_inv h en
  | tick en => exact tick_inv h en
  | powerOnReset =>
    rw [effect, powerOnReset_eq]
    exact (powerOn_inv h.cfg).congr

/-- Taking the next word changes only the environment. -/
theorem nextOpWord_inv {s : State} (h : s.Inv) : (nextOpWord s).2.Inv := by
  unfold nextOpWord
  split <;> exact h.congr

/-- Settles O11: a step takes its word and runs a permitted operation, and both keep the invariant. -/
theorem stepKeepsInvariant : Obligations.StepKeepsInvariant := by
  intro s t h hstep
  obtain ⟨i, hi⟩ := exists_exec_of_step hstep
  obtain ⟨-, hw, rfl⟩ := exec_eq_next.1 hi
  exact effect_inv (nextOpWord_inv h) hw

end Sys2Proof.Machine

/-! The bus (20_memory.md): which registers the block's own operations access, what a read may answer, and where the
accesses lie in the address space. -/

namespace Sys2Proof.Machine

/-! Own accesses -/

theorem ownAccess_ctrlWrite (c : Config) (b : Byte) : ownAccess c (ctrlWrite c b) := .inl rfl

theorem ownAccess_stateWrite (c : Config) (b : Byte) : ownAccess c (.write c.idxState b) := .inr (.inl rfl)

theorem ownAccess_statRead (c : Config) (b : Byte) : ownAccess c (.read c.idxStat b) := .inl rfl

theorem ownAccess_of_mem_dacWrites {c : Config} {n : Nat} {x : Txn} (hx : x ∈ dacWrites c n) : ownAccess c x := by
  simp only [dacWrites, List.mem_cons, List.not_mem_nil, or_false] at hx
  rcases hx with rfl | rfl
  · exact .inr (.inr (.inl rfl))
  · exact .inr (.inr (.inr rfl))

theorem ownAccess_of_mem_countReads {c : Config} {idx : Nat}
    (hidx : idx = c.idxErr1s ∨ idx = c.idxErr10s ∨ idx = c.idxErr100s) {b0 b1 b2 b3 : Byte} {x : Txn}
    (hx : x ∈ countReads idx b0 b1 b2 b3) : ownAccess c x := by
  simp only [countReads, List.mem_cons, List.not_mem_nil, or_false] at hx
  rcases hx with rfl | rfl | rfl | rfl <;> simp only [ownAccess] <;> omega

/-- R76: from `s` to `t` the configuration stays, and every transaction of `t` that `s` does not have is one of the block's
own. -/
def AddsOnlyOwnAccesses (s t : State) : Prop :=
  t.cfg = s.cfg ∧ ∀ x ∈ t.trace, x ∈ s.trace ∨ ownAccess s.cfg x

theorem AddsOnlyOwnAccesses.refl (s : State) : AddsOnlyOwnAccesses s s := ⟨rfl, fun _ => .inl⟩

theorem AddsOnlyOwnAccesses.trans {s t u : State} (h : AddsOnlyOwnAccesses s t) (k : AddsOnlyOwnAccesses t u) :
    AddsOnlyOwnAccesses s u := by
  obtain ⟨hcfg, hown⟩ := h
  obtain ⟨kcfg, kown⟩ := k
  rw [hcfg] at kcfg kown
  exact ⟨kcfg, fun x hx => (kown x hx).elim (hown x) .inr⟩

theorem Performs.addsOnlyOwnAccesses {s t : State} {l : List Txn} (h : Performs s t l)
    (hl : ∀ x ∈ l, ownAccess s.cfg x) : AddsOnlyOwnAccesses s t := by
  obtain ⟨htrace, hcfg, -⟩ := h
  refine ⟨hcfg, fun x hx => ?_⟩
  rw [htrace, List.mem_append] at hx
  exact hx.imp_right (hl x)

theorem regWrite_addsOnlyOwnAccesses {idx : Nat} {b : Byte} {s : State} (h : ownAccess s.cfg (.write idx b)) :
    AddsOnlyOwnAccesses s (regWrite idx b s) :=
  (regWrite_performs idx b s).addsOnlyOwnAccesses (List.forall_mem_singleton.2 h)

theorem ctrlWrite_addsOnlyOwnAccesses (b : Byte) (s : State) : AddsOnlyOwnAccesses s (regWrite s.cfg.idxCtrl b s) :=
  regWrite_addsOnlyOwnAccesses (ownAccess_ctrlWrite s.cfg b)

theorem stateWrite_addsOnlyOwnAccesses (b : Byte) (s : State) : AddsOnlyOwnAccesses s (regWrite s.cfg.idxState b s) :=
  regWrite_addsOnlyOwnAccesses (ownAccess_stateWrite s.cfg b)

theorem statRead_addsOnlyOwnAccesses (s : State) : AddsOnlyOwnAccesses s (regRead s.cfg.idxStat s).2 :=
  (regRead_performs _ s).addsOnlyOwnAccesses (List.forall_mem_singleton.2 (ownAccess_statRead s.cfg _))

theorem resetCounters_addsOnlyOwnAccesses (b : Bool) (s : State) : AddsOnlyOwnAccesses s (resetCounters b s) :=
  ctrlWrite_addsOnlyOwnAccesses _ s

theorem enableIsr_addsOnlyOwnAccesses (b : Bool) (s : State) : AddsOnlyOwnAccesses s (enableIsr b s) :=
  ctrlWrite_addsOnlyOwnAccesses _ s

theorem setTuneMode_addsOnlyOwnAccesses (m : BitVec 2) (s : State) : AddsOnlyOwnAccesses s (setTuneMode m s) := by
  obtain ⟨bs, h, -⟩ := setTuneMode_performs m s
  exact h.addsOnlyOwnAccesses (List.forall_mem_map.2 fun b _ => ownAccess_ctrlWrite s.cfg b)

theorem dacWrite_addsOnlyOwnAccesses (v : U16) (s : State) : AddsOnlyOwnAccesses s (dacWrite v s) :=
  (dacWrite_performs v s).addsOnlyOwnAccesses fun _ => ownAccess_of_mem_dacWrites

theorem rearm_addsOnlyOwnAccesses (s : State) : AddsOnlyOwnAccesses s (rearm s) :=
  (resetCounters_addsOnlyOwnAccesses false s).trans (enableIsr_addsOnlyOwnAccesses true _)

theorem calCompute_addsOnlyOwnAccesses (s : State) : AddsOnlyOwnAccesses s (calCompute s) :=
  (calCompute_performs s).addsOnlyOwnAccesses (List.forall_mem_nil _)

theorem fineCorrect_addsOnlyOwnAccesses (s : State) : AddsOnlyOwnAccesses s (fineCorrect s) := by
  rcases fineCorrect_cases s with ⟨-, -, -, he⟩ | ⟨-, v, he, -⟩ <;> rw [he]
  · exact .refl s
  · exact dacWrite_addsOnlyOwnAccesses v s

theorem fsmArm_addsOnlyOwnAccesses (s : State) : AddsOnlyOwnAccesses s (fsmArm s) := by
  unfold fsmArm
  cases s.tstate with
  | coarseTuneMin =>
    have hdac := dacWrite_addsOnlyOwnAccesses (u16OfNat s.cfg.trimdacMin) s
    have hreset := hdac.trans (resetCounters_addsOnlyOwnAccesses true _)
    exact hreset
  | coarseTuneMax =>
    have hdac := dacWrite_addsOnlyOwnAccesses (u16OfNat s.cfg.trimdacMax)
      { s with x0 := s.e1, y0 := u16OfNat s.cfg.trimdacMin }
    have hreset := hdac.trans (resetCounters_addsOnlyOwnAccesses true _)
    exact hreset
  | coarseTuneDone =>
    let line := calCompute { s with x1 := s.e1, y1 := u16OfNat s.cfg.trimdacMax }
    have hline : AddsOnlyOwnAccesses s line := calCompute_addsOnlyOwnAccesses _
    have hdac := hline.trans (dacWrite_addsOnlyOwnAccesses line.yint line)
    have hstate := hdac.trans (stateWrite_addsOnlyOwnAccesses line.cfg.stateValCoarseDone _)
    exact hstate
  | fineTune => exact fineCorrect_addsOnlyOwnAccesses s

theorem fsmStep_addsOnlyOwnAccesses (s : State) : AddsOnlyOwnAccesses s (fsmStep s) := by
  by_cases hact : s.ready = true ∧ Ungated s
  · rw [fsmStep_of_ready hact.2 hact.1]
    exact (fsmArm_addsOnlyOwnAccesses { s with ready := false }).trans (rearm_addsOnlyOwnAccesses _)
  · rw [fsmStep_idle hact]
    exact .refl s

/-- R141: of CAPTURE's sixteen transactions twelve read the counters, one reads STAT and three write CTRL. -/
theorem capture_addsOnlyOwnAccesses (s : State) : AddsOnlyOwnAccesses s (capture s) := by
  obtain ⟨a0, a1, a2, a3, b0, b1, b2, b3, c0, c1, c2, c3, st, l, rfl, -, h⟩ := capture_spec s
  refine h.addsOnlyOwnAccesses fun x hx => ?_
  simp only [List.mem_append, List.mem_cons, List.not_mem_nil, or_false] at hx
  rcases hx with ((((rfl | rfl) | h1s) | h10s) | h100s) | rfl | rfl
  · exact ownAccess_ctrlWrite _ _
  · exact ownAccess_ctrlWrite _ _
  · exact ownAccess_of_mem_countReads (.inl rfl) h1s
  · exact ownAccess_of_mem_countReads (.inr (.inl rfl)) h10s
  · exact ownAccess_of_mem_countReads (.inr (.inr rfl)) h100s
  · exact ownAccess_statRead _ _
  · exact ownAccess_ctrlWrite _ _

theorem poll_addsOnlyOwnAccesses (s : State) : AddsOnlyOwnAccesses s (poll s) := by
  have hstat := statRead_addsOnlyOwnAccesses s
  unfold poll
  split
  · exact .refl s
  · dsimp only
    split
    · exact hstat.trans (capture_addsOnlyOwnAccesses _)
    · exact hstat

theorem tamerInit_addsOnlyOwnAccesses (s : State) : AddsOnlyOwnAccesses s (tamerInit s) :=
  (setTuneMode_addsOnlyOwnAccesses _ s).trans (stateWrite_addsOnlyOwnAccesses _ _)

theorem supervise_addsOnlyOwnAccesses (en : Bool) (s : State) : AddsOnlyOwnAccesses s (supervise en s) := by
  unfold supervise superviseEdge
  split
  · exact tamerInit_addsOnlyOwnAccesses s
  · split
    · exact setTuneMode_addsOnlyOwnAccesses (modeCode .disabled) s
    · exact .refl s

theorem tick_addsOnlyOwnAccesses (en : Bool) (s : State) : AddsOnlyOwnAccesses s (tick en s) :=
  ((supervise_addsOnlyOwnAccesses en s).trans (poll_addsOnlyOwnAccesses _)).trans (fsmStep_addsOnlyOwnAccesses _)

/-- R250: POWER_ON_RESET forgets the earlier transactions and drives the DAC. -/
theorem powerOnReset_addsOnlyOwnAccesses (s : State) : AddsOnlyOwnAccesses s (powerOnReset s) := by
  rw [powerOnReset_eq]
  exact ⟨rfl, fun x hx => .inr (ownAccess_of_mem_dacWrites hx)⟩

/-- Settles O55: each remaining operation is a composition of CTRL, STATE and DAC writes with STAT and counter reads. -/
theorem ownAccessesOnly : Obligations.OwnAccessesOnly := by
  intro i s t h hread hwrite hcount
  obtain ⟨-, -, rfl⟩ := exec_eq_next.1 h
  suffices hown : AddsOnlyOwnAccesses s (effect i s) from hown.2
  cases i with
  | regWrite idx data => exact absurd rfl (hwrite idx data)
  | regRead idx => exact absurd rfl (hread idx)
  | readCount idx => exact absurd rfl (hcount idx)
  | resetCounters | enableIsr | clearIsr => exact ctrlWrite_addsOnlyOwnAccesses _ s
  | setTuneMode m => exact setTuneMode_addsOnlyOwnAccesses m s
  | dacWrite v => exact dacWrite_addsOnlyOwnAccesses v s
  | capture => exact capture_addsOnlyOwnAccesses s
  | poll => exact poll_addsOnlyOwnAccesses s
  | fsmCoarseMin | fsmCoarseMax | fsmCoarseDone | fsmFineTune => exact fsmStep_addsOnlyOwnAccesses s
  | calCompute => exact calCompute_addsOnlyOwnAccesses s
  | fineCorrect => exact fineCorrect_addsOnlyOwnAccesses s
  | rearm => exact rearm_addsOnlyOwnAccesses s
  | tamerInit => exact tamerInit_addsOnlyOwnAccesses s
  | tamerDisable => exact setTuneMode_addsOnlyOwnAccesses (modeCode .disabled) s
  | supervise en => exact supervise_addsOnlyOwnAccesses en s
  | tick en => exact tick_addsOnlyOwnAccesses en s
  | powerOnReset => exact powerOnReset_addsOnlyOwnAccesses s

/-! What a read answers -/

/-- R75, R100: REG_READ returns the environment's next answer when it is named. -/
theorem effect_regRead_of_answers {s : State} {idx : BitVec 8} {b : Byte} {rest : List Byte}
    (h : s.env.answers = b :: rest) : effect (.regRead idx) s =
      { s with trace := s.trace ++ [.read idx.toNat b], ret := some (.byte b), env := s.env.answered } := by
  obtain rfl := regRead_fst_of_answers (idx := idx.toNat) h
  rfl

/-- Settles O13: an environment whose next named answer is the byte gives it. -/
theorem everyByteIsAdmitted : Obligations.EveryByteIsAdmitted := by
  intro s idx b hv
  have hcompletes := exec_of_valid (i := .regRead idx) (s := { s with env := { s.env with answers := [b] } }) hv rfl
  exact ⟨_, _, hcompletes.trans (congrArg Host.Outcome.next (effect_regRead_of_answers rfl))⟩

/-! Addresses -/

/-- R60, R65: under a valid configuration each of the 256 registers has an aligned slot inside the address space. -/
theorem regAddr_aligned_of_valid {c : Config} (hv : c.valid = true) {idx : Nat} (hi : idx ≤ 255) :
    c.regAddr idx % 4 = 0 ∧ c.regAddr idx + 3 < 2 ^ 32 := by
  obtain ⟨halign, hend⟩ := Config.base_of_valid hv
  unfold Config.regAddr
  omega

/-- Settles O58: the invariant keeps every recorded index in the window. -/
theorem accessesAreAligned : Obligations.AccessesAreAligned :=
  fun _ h x hx => regAddr_aligned_of_valid h.cfg (h.window x hx)

end Sys2Proof.Machine

/-! The operation words (30_encoding.md): decoding and encoding are inverse, and the words left are those that match no row
of the opcode table. -/

namespace Sys2Proof

open Machine Laws

/-! Decoding the word of an operation -/

theorem decode_encode_fsmRow (ts : TuneState) : decode ts (encode (.fsmRow ts)) = .ok (.fsmRow ts) := by
  cases ts <;> rfl

/-- Settles O1: the word of each format has its opcode, its zero field and its operands in their places. -/
theorem decodeOfEncode : Obligations.DecodeOfEncode := by
  intro ts i hsel
  cases i with
  | regWrite idx data =>
    obtain ⟨hop, hzero, hidx, hdata⟩ := fields_wordFIW 0x01 idx data
    rw [encode, decode, hop, hidx, hdata]
    exact ofFormat_ok hzero
  | regRead idx =>
    obtain ⟨hop, hzero, hidx⟩ := fields_wordFI 0x02 idx
    rw [encode, decode, hop, hidx]
    exact ofFormat_ok hzero
  | setTuneMode m =>
    obtain ⟨hop, hzero, hm⟩ := fields_wordFM 0x06 m
    rw [encode, decode, hop, hm]
    exact ofFormat_ok hzero
  | readCount idx =>
    obtain ⟨hop, hzero, hidx⟩ := fields_wordFI 0x07 idx
    rw [encode, decode, hop, hidx]
    exact ofFormat_ok hzero
  | dacWrite v =>
    obtain ⟨hop, hzero, hv⟩ := fields_wordFV 0x08 v
    rw [encode, decode, hop, hv]
    exact ofFormat_ok hzero
  | resetCounters b | enableIsr b | supervise b | tick b => cases b <;> rfl
  | fsmCoarseMin | fsmCoarseMax | fsmCoarseDone | fsmFineTune =>
    obtain rfl := of_decide_eq_true hsel
    exact decode_encode_fsmRow _
  | clearIsr | capture | poll | calCompute | fineCorrect | rearm | tamerInit | tamerDisable | powerOnReset => rfl

/-! The word of a decoded operation -/

theorem wordF0_of_fields {w : OpWord} {op : BitVec 8}
    (h : (opcodeOf w).toNat = op.toNat ∧ Format.zeroBits .f0 w = 0) : wordF0 op = w := by
  refine BitVec.eq_of_toNat_eq ?_
  have hw := w.isLt
  simp only [opcodeOf_toNat, zeroBits_toNat, Format.zeroField, toNat_wordF0] at *
  omega

theorem wordFB_of_fields {w : OpWord} {op : BitVec 8}
    (h : (opcodeOf w).toNat = op.toNat ∧ Format.zeroBits .fb w = 0) : wordFB op (fieldB w) = w := by
  refine BitVec.eq_of_toNat_eq ?_
  have hw := w.isLt
  simp only [opcodeOf_toNat, zeroBits_toNat, Format.zeroField, toNat_wordFB, fieldB_toNat] at *
  omega

theorem wordFM_of_fields {w : OpWord} {op : BitVec 8}
    (h : (opcodeOf w).toNat = op.toNat ∧ Format.zeroBits .fm w = 0) : wordFM op (fieldM w) = w := by
  refine BitVec.eq_of_toNat_eq ?_
  have hw := w.isLt
  simp only [opcodeOf_toNat, zeroBits_toNat, Format.zeroField, toNat_wordFM, fieldM, toNat_field] at *
  omega

theorem wordFI_of_fields {w : OpWord} {op : BitVec 8}
    (h : (opcodeOf w).toNat = op.toNat ∧ Format.zeroBits .fi w = 0) : wordFI op (fieldIdx w) = w := by
  refine BitVec.eq_of_toNat_eq ?_
  have hw := w.isLt
  simp only [opcodeOf_toNat, zeroBits_toNat, Format.zeroField, toNat_wordFI, fieldIdx, toNat_field] at *
  omega

theorem wordFIW_of_fields {w : OpWord} {op : BitVec 8}
    (h : (opcodeOf w).toNat = op.toNat ∧ Format.zeroBits .fiw w = 0) : wordFIW op (fieldIdx w) (fieldData w) = w := by
  refine BitVec.eq_of_toNat_eq ?_
  have hw := w.isLt
  simp only [opcodeOf_toNat, zeroBits_toNat, Format.zeroField, toNat_wordFIW, fieldIdx, fieldData, toNat_field] at *
  omega

theorem wordFV_of_fields {w : OpWord} {op : BitVec 8}
    (h : (opcodeOf w).toNat = op.toNat ∧ Format.zeroBits .fv w = 0) : wordFV op (fieldV w) = w := by
  refine BitVec.eq_of_toNat_eq ?_
  have hw := w.isLt
  simp only [opcodeOf_toNat, zeroBits_toNat, Format.zeroField, toNat_wordFV, fieldV, toNat_field] at *
  omega

@[simp] theorem encode_fsmRow (ts : TuneState) : encode (.fsmRow ts) = wordF0 0x0B := by
  cases ts <;> rfl

@[simp] theorem selectedIn_fsmRow (ts : TuneState) : (Instr.fsmRow ts).selectedIn ts = true := by
  cases ts <;> rfl

/-- Settles O2: in every row of the map of R91 the opcode, the operands and the zero field are the whole word. -/
theorem encodeOfDecode : Obligations.EncodeOfDecode := by
  intro ts w i h
  unfold decode at h
  split at h
  case h_20 => simp at h
  all_goals obtain ⟨hzero, rfl⟩ := ofFormat_eq_ok.1 h
  case h_1 hop => exact ⟨wordFIW_of_fields ⟨hop, hzero⟩, rfl⟩
  case h_2 hop | h_7 hop => exact ⟨wordFI_of_fields ⟨hop, hzero⟩, rfl⟩
  case h_3 hop | h_4 hop | h_17 hop | h_18 hop => exact ⟨wordFB_of_fields ⟨hop, hzero⟩, rfl⟩
  case h_6 hop => exact ⟨wordFM_of_fields ⟨hop, hzero⟩, rfl⟩
  case h_8 hop => exact ⟨wordFV_of_fields ⟨hop, hzero⟩, rfl⟩
  case h_11 hop => exact ⟨(encode_fsmRow ts).trans (wordF0_of_fields ⟨hop, hzero⟩), selectedIn_fsmRow ts⟩
  case h_5 hop | h_9 hop | h_10 hop | h_12 hop | h_13 hop | h_14 hop | h_15 hop | h_16 hop | h_19 hop =>
    exact ⟨wordF0_of_fields ⟨hop, hzero⟩, rfl⟩

/-! The rows of the opcode table -/

/-- The mask of an opcode table row of a format: the opcode and the bits the format marks `0` (R90). -/
def Format.mask : Format → OpWord
  | .f0 => 0xFFFFFFFF
  | .fb => 0xFFFFFEFF
  | .fm => 0xFFFFFCFF
  | .fi => 0xFFFF00FF
  | .fiw => 0xFF0000FF
  | .fv => 0x0000FFFF

theorem fields_of_row {f : Format} {op : BitVec 8} {w : OpWord} (h : w &&& f.mask = op.setWidth 32) :
    (opcodeOf w).toNat = op.toNat ∧ f.zeroBits w = 0 := by
  have hmask : ∀ k, k < 32 → f.mask.getLsbD k =
      (decide (k < 8) || decide (f.zeroField.1 ≤ k ∧ k < f.zeroField.1 + f.zeroField.2)) := by
    cases f <;> decide
  obtain ⟨hop, hzero⟩ := (row_iff w op f.zeroField.1 f.zeroField.2 f.mask hmask (by cases f <;> decide)).1 h
  exact ⟨congrArg BitVec.toNat hop, (zeroBits_toNat f w).trans hzero⟩

/-- A word that matches a row is the word of an operation that its TuneState selects. -/
theorem exists_encode_of_row (ts : TuneState) {w : OpWord} {r : OpWord × OpWord} (hr : r ∈ operationRows)
    (h : w &&& r.1 = r.2) : ∃ i : Instr, i.selectedIn ts = true ∧ encode i = w := by
  simp only [operationRows, List.cons_append, List.nil_append, List.mem_cons, List.not_mem_nil, or_false] at hr
  rcases hr with rfl | rfl | rfl | rfl | rfl | rfl | rfl | rfl | rfl | rfl | rfl | rfl | rfl | rfl | rfl | rfl | rfl |
    rfl | rfl
  · exact ⟨.regWrite (fieldIdx w) (fieldData w), rfl, wordFIW_of_fields (fields_of_row h)⟩
  · exact ⟨.regRead (fieldIdx w), rfl, wordFI_of_fields (fields_of_row h)⟩
  · exact ⟨.resetCounters (fieldB w), rfl, wordFB_of_fields (fields_of_row h)⟩
  · exact ⟨.enableIsr (fieldB w), rfl, wordFB_of_fields (fields_of_row h)⟩
  · exact ⟨.clearIsr, rfl, wordF0_of_fields (fields_of_row h)⟩
  · exact ⟨.setTuneMode (fieldM w), rfl, wordFM_of_fields (fields_of_row h)⟩
  · exact ⟨.readCount (fieldIdx w), rfl, wordFI_of_fields (fields_of_row h)⟩
  · exact ⟨.dacWrite (fieldV w), rfl, wordFV_of_fields (fields_of_row h)⟩
  · exact ⟨.capture, rfl, wordF0_of_fields (fields_of_row h)⟩
  · exact ⟨.poll, rfl, wordF0_of_fields (fields_of_row h)⟩
  · exact ⟨.fsmRow ts, selectedIn_fsmRow ts, (encode_fsmRow ts).trans (wordF0_of_fields (fields_of_row h))⟩
  · exact ⟨.calCompute, rfl, wordF0_of_fields (fields_of_row h)⟩
  · exact ⟨.fineCorrect, rfl, wordF0_of_fields (fields_of_row h)⟩
  · exact ⟨.rearm, rfl, wordF0_of_fields (fields_of_row h)⟩
  · exact ⟨.tamerInit, rfl, wordF0_of_fields (fields_of_row h)⟩
  · exact ⟨.tamerDisable, rfl, wordF0_of_fields (fields_of_row h)⟩
  · exact ⟨.supervise (fieldB w), rfl, wordFB_of_fields (fields_of_row h)⟩
  · exact ⟨.tick (fieldB w), rfl, wordFB_of_fields (fields_of_row h)⟩
  · exact ⟨.powerOnReset, rfl, wordF0_of_fields (fields_of_row h)⟩

/-- The word of every operation matches the operation's row. -/
theorem encode_matches_row : ∀ i : Instr, OperationRow.Statement i
  | .regWrite idx data => OperationRow.regWrite idx data
  | .regRead idx => OperationRow.regRead idx
  | .resetCounters b => OperationRow.resetCounters b
  | .enableIsr b => OperationRow.enableIsr b
  | .clearIsr => OperationRow.clearIsr
  | .setTuneMode m => OperationRow.setTuneMode m
  | .readCount idx => OperationRow.readCount idx
  | .dacWrite v => OperationRow.dacWrite v
  | .capture => OperationRow.capture
  | .poll => OperationRow.poll
  | .fsmCoarseMin => OperationRow.fsmCoarseMin
  | .fsmCoarseMax => OperationRow.fsmCoarseMax
  | .fsmCoarseDone => OperationRow.fsmCoarseDone
  | .fsmFineTune => OperationRow.fsmFineTune
  | .calCompute => OperationRow.calCompute
  | .fineCorrect => OperationRow.fineCorrect
  | .rearm => OperationRow.rearm
  | .tamerInit => OperationRow.tamerInit
  | .tamerDisable => OperationRow.tamerDisable
  | .supervise en => OperationRow.supervise en
  | .tick en => OperationRow.tick en
  | .powerOnReset => OperationRow.powerOnReset

theorem eq_undefinedOperation_of_ofFormat {f : Format} {w : OpWord} {i : Instr} {e : DecodeError}
    (h : ofFormat f w i = .error e) : e = .undefinedOperation w := by
  unfold ofFormat at h
  split at h
  · simp at h
  · exact (Except.error.inj h).symm

/-- R92: decoding refuses a word under its own name only. -/
theorem eq_undefinedOperation_of_decode {ts : TuneState} {w : OpWord} {e : DecodeError}
    (h : decode ts w = .error e) : e = .undefinedOperation w := by
  unfold decode at h
  split at h
  case h_20 => exact (Except.error.inj h).symm
  all_goals exact eq_undefinedOperation_of_ofFormat h

/-- Settles O3: a word that matches a row is an operation's word, which decodes, and a word that decodes is its operation's,
which matches a row. -/
theorem undefinedWordsMatchNoRow : Obligations.UndefinedWordsMatchNoRow := by
  intro ts w
  constructor
  · intro hundef r hr hrow
    obtain ⟨i, hsel, rfl⟩ := exists_encode_of_row ts hr hrow
    rw [decodeOfEncode ts i hsel] at hundef
    simp at hundef
  · intro hnone
    cases hdec : decode ts w with
    | error e => rw [eq_undefinedOperation_of_decode hdec]
    | ok i =>
      obtain ⟨rfl, -⟩ := encodeOfDecode ts w i hdec
      obtain ⟨hrow, hmem⟩ := encode_matches_row i
      exact absurd hrow (hnone _ hmem)

/-! Words written out from the spec -/

/-- Settles O4: eight of the words are those of operations, and two match no row. -/
theorem specWordsDecode : Obligations.SpecWordsDecode := by
  refine ⟨decodeOfEncode _ (.regWrite 0 0x86) rfl, decodeOfEncode _ (.readCount 5) rfl,
    decodeOfEncode _ (.setTuneMode 3) rfl, decodeOfEncode _ (.dacWrite 32113) rfl, decodeOfEncode _ (.tick true) rfl,
    decodeOfEncode _ .fsmFineTune rfl, decodeOfEncode _ .fsmCoarseMax rfl, decodeOfEncode _ .powerOnReset rfl, ?_, ?_⟩
  · exact (undefinedWordsMatchNoRow _ _).2 (by simp [operationRows])
  · exact (undefinedWordsMatchNoRow _ _).2 (by simp [operationRows])

end Sys2Proof

/-! The control bytes (30_encoding.md R81, R88) that the block's own operations write. -/

namespace Sys2Proof.Machine

theorem ctrlReserved_withIrqClear (c : Byte) : ctrlReserved (withIrqClear c) = ctrlReserved c := by
  revert c
  decide

theorem ctrlTuneMode_withIrqClear (c : Byte) : ctrlTuneMode (withIrqClear c) = ctrlTuneMode c := by
  revert c
  decide

/-- R88: a control byte has reserved bits 0 and a recognised mode, and pulses `irq_clear` only where `pulse` permits it. -/
def ControlByteOk (pulse : Prop) (b : Byte) : Prop :=
  ctrlReserved b = 0 ∧ ctrlTuneMode b ≠ 0b11 ∧ (ctrlIrqClear b = true → pulse)

theorem ShadowOk.controlByteOk {c : Byte} (h : ShadowOk c) (pulse : Prop) : ControlByteOk pulse c := by
  obtain ⟨hclear, hreserved, hmode⟩ := h
  exact ⟨hreserved, hmode, fun hset => by simp [hclear] at hset⟩

theorem ShadowOk.withIrqClear_controlByteOk {c : Byte} (h : ShadowOk c) {pulse : Prop} (hp : pulse) :
    ControlByteOk pulse (withIrqClear c) := by
  obtain ⟨-, hreserved, hmode⟩ := h
  exact ⟨(ctrlReserved_withIrqClear c).trans hreserved, by rwa [ctrlTuneMode_withIrqClear], fun _ => hp⟩

/-- Under a valid configuration and from a shadow R22 allows: from `s` to `t` the configuration stays, the shadow is still one
that R22 allows, and every CTRL byte written is one of R88. -/
def WritesControlBytes (pulse : Prop) (s t : State) : Prop :=
  s.cfg.valid = true → ShadowOk s.ctrl → t.cfg = s.cfg ∧ ShadowOk t.ctrl ∧
    ∃ l : List Txn, t.trace = s.trace ++ l ∧ ∀ b : Byte, .write s.cfg.idxCtrl b ∈ l → ControlByteOk pulse b

section
variable {pulse : Prop}

theorem WritesControlBytes.refl (s : State) : WritesControlBytes pulse s s :=
  fun _ hshadow => ⟨rfl, hshadow, [], (List.append_nil _).symm, by simp⟩

theorem WritesControlBytes.trans {s t u : State} (h : WritesControlBytes pulse s t) (k : WritesControlBytes pulse t u) :
    WritesControlBytes pulse s u := by
  intro hv hshadow
  obtain ⟨hcfg, htshadow, l, hl, hok⟩ := h hv hshadow
  obtain ⟨kcfg, hushadow, m, hm, kok⟩ := k (by rwa [hcfg]) htshadow
  rw [hcfg] at kok
  refine ⟨kcfg.trans hcfg, hushadow, l ++ m, by rw [hm, hl, List.append_assoc], fun b hb => ?_⟩
  exact (List.mem_append.1 hb).elim (hok b) (kok b)

/-- Transactions of other registers leave the control bytes alone. -/
theorem Performs.writesControlBytes {s t : State} {l : List Txn} (h : Performs s t l) (hctrl : t.ctrl = s.ctrl)
    (hl : s.cfg.valid = true → ∀ b : Byte, .write s.cfg.idxCtrl b ∉ l) : WritesControlBytes pulse s t := by
  intro hv hshadow
  obtain ⟨htrace, hcfg, -⟩ := h
  exact ⟨hcfg, by rwa [hctrl], l, htrace, fun b hb => absurd hb (hl hv b)⟩

/-- A mutator sets a byte that R22 allows and flushes it. -/
theorem flush_writesControlBytes {s : State} {c : Byte} (hc : ShadowOk s.ctrl → ShadowOk c) :
    WritesControlBytes pulse s (flush { s with ctrl := c }) := by
  intro _ hshadow
  refine ⟨rfl, hc hshadow, [ctrlWrite s.cfg c], rfl, fun b hb => ?_⟩
  obtain rfl : b = c := by simpa [ctrlWrite] using hb
  exact (hc hshadow).controlByteOk pulse

theorem resetCounters_writesControlBytes (b : Bool) (s : State) : WritesControlBytes pulse s (resetCounters b s) :=
  flush_writesControlBytes fun h => withReset_shadowOk h b

theorem enableIsr_writesControlBytes (b : Bool) (s : State) : WritesControlBytes pulse s (enableIsr b s) :=
  flush_writesControlBytes fun h => withIrqEnable_shadowOk h b

theorem rearm_writesControlBytes (s : State) : WritesControlBytes pulse s (rearm s) :=
  (resetCounters_writesControlBytes false s).trans (enableIsr_writesControlBytes true _)

/-- R105: the byte is the shadow with `irq_clear` set, and the shadow stays. -/
theorem clearIsr_writesControlBytes (hp : pulse) (s : State) : WritesControlBytes pulse s (clearIsr s) := by
  intro _ hshadow
  refine ⟨rfl, hshadow, [ctrlWrite s.cfg (withIrqClear s.ctrl)], rfl, fun b hb => ?_⟩
  obtain rfl : b = withIrqClear s.ctrl := by simpa [ctrlWrite] using hb
  exact hshadow.withIrqClear_controlByteOk hp

theorem changeTuneMode_writesControlBytes (mode : TuneMode) (s : State) :
    WritesControlBytes pulse s (changeTuneMode mode s) := by
  have hcode : modeCode mode ≠ 0b11 := by cases mode <;> decide
  have hmode := (enableIsr_writesControlBytes (pulse := pulse) false s).trans
    (flush_writesControlBytes fun h => withTuneMode_shadowOk h hcode)
  have held := hmode.trans (resetCounters_writesControlBytes true _)
  unfold changeTuneMode
  dsimp only
  split
  · exact held
  · exact (held.trans (resetCounters_writesControlBytes false _)).trans (enableIsr_writesControlBytes true _)

theorem setTuneMode_writesControlBytes (m : BitVec 2) (s : State) : WritesControlBytes pulse s (setTuneMode m s) := by
  unfold setTuneMode
  split
  · exact .refl s
  · exact changeTuneMode_writesControlBytes _ s

theorem regRead_writesControlBytes (idx : Nat) (s : State) : WritesControlBytes pulse s (regRead idx s).2 :=
  (regRead_performs idx s).writesControlBytes rfl (by simp)

theorem readCount_writesControlBytes (idx : Nat) (s : State) : WritesControlBytes pulse s (readCount idx s).2 := by
  obtain ⟨b0, b1, b2, b3, -, h⟩ := readCount_spec idx s
  exact h.writesControlBytes rfl (by simp [countReads])

theorem dacWrite_writesControlBytes (v : U16) (s : State) : WritesControlBytes pulse s (dacWrite v s) := by
  refine (dacWrite_performs v s).writesControlBytes rfl fun hv b => ?_
  obtain ⟨-, hlo, hhi, -⟩ := Config.written_indices_distinct hv
  simp [dacWrites, hlo, hhi]

theorem stateWrite_writesControlBytes (b : Byte) (s : State) : WritesControlBytes pulse s (regWrite s.cfg.idxState b s) := by
  refine (regWrite_performs _ b s).writesControlBytes rfl fun hv b' => ?_
  simp [(Config.written_indices_distinct hv).1]

theorem calCompute_writesControlBytes (s : State) : WritesControlBytes pulse s (calCompute s) := by
  obtain ⟨m, y, he, -⟩ := calCompute_eq s
  exact (calCompute_performs s).writesControlBytes (by rw [he]) (by simp)

theorem fineCorrect_writesControlBytes (s : State) : WritesControlBytes pulse s (fineCorrect s) := by
  rcases fineCorrect_cases s with ⟨-, -, -, he⟩ | ⟨-, v, he, -⟩ <;> rw [he]
  · exact .refl s
  · exact dacWrite_writesControlBytes v s

theorem fsmArm_writesControlBytes (s : State) : WritesControlBytes pulse s (fsmArm s) := by
  unfold fsmArm
  cases s.tstate with
  | coarseTuneMin =>
    have hdac := dacWrite_writesControlBytes (pulse := pulse) (u16OfNat s.cfg.trimdacMin) s
    exact hdac.trans (resetCounters_writesControlBytes true _)
  | coarseTuneMax =>
    have hdac := dacWrite_writesControlBytes (pulse := pulse) (u16OfNat s.cfg.trimdacMax)
      { s with x0 := s.e1, y0 := u16OfNat s.cfg.trimdacMin }
    exact hdac.trans (resetCounters_writesControlBytes true _)
  | coarseTuneDone =>
    have hline := calCompute_writesControlBytes (pulse := pulse) { s with x1 := s.e1, y1 := u16OfNat s.cfg.trimdacMax }
    exact (hline.trans (dacWrite_writesControlBytes _ _)).trans (stateWrite_writesControlBytes _ _)
  | fineTune => exact fineCorrect_writesControlBytes s

theorem fsmStep_writesControlBytes (s : State) : WritesControlBytes pulse s (fsmStep s) := by
  by_cases hact : s.ready = true ∧ Ungated s
  · rw [fsmStep_of_ready hact.2 hact.1]
    exact (fsmArm_writesControlBytes { s with ready := false }).trans (rearm_writesControlBytes _)
  · rw [fsmStep_idle hact]
    exact .refl s

/-- R141: CAPTURE freezes the counters by two flushes, reads, and ends in CLEAR_ISR's pulse. -/
theorem capture_writesControlBytes (hp : pulse) (s : State) : WritesControlBytes pulse s (capture s) := by
  intro _ hshadow
  obtain ⟨a0, a1, a2, a3, b0, b1, b2, b3, c0, c1, c2, c3, st, l, rfl, he, htrace, hcfg, -⟩ := capture_spec s
  have hmasked := withIrqEnable_shadowOk hshadow false
  have hheld := withReset_shadowOk hmasked true
  refine ⟨hcfg, by rwa [he], _, htrace, fun b hb => ?_⟩
  simp only [countReads, ctrlWrite, List.mem_append, List.mem_cons, List.not_mem_nil, reduceCtorEq, Txn.write.injEq,
    true_and, or_false, false_or] at hb
  rcases hb with (rfl | rfl) | rfl
  · exact hmasked.controlByteOk pulse
  · exact hheld.controlByteOk pulse
  · exact hheld.withIrqClear_controlByteOk hp

theorem poll_writesControlBytes (hp : pulse) (s : State) : WritesControlBytes pulse s (poll s) := by
  have hstat := regRead_writesControlBytes (pulse := pulse) s.cfg.idxStat s
  unfold poll
  split
  · exact .refl s
  · dsimp only
    split
    · exact hstat.trans (capture_writesControlBytes hp _)
    · exact hstat

theorem tamerInit_writesControlBytes (s : State) : WritesControlBytes pulse s (tamerInit s) :=
  (setTuneMode_writesControlBytes _ s).trans (stateWrite_writesControlBytes _ _)

theorem supervise_writesControlBytes (en : Bool) (s : State) : WritesControlBytes pulse s (supervise en s) := by
  unfold supervise superviseEdge
  split
  · exact tamerInit_writesControlBytes s
  · split
    · exact setTuneMode_writesControlBytes (modeCode .disabled) s
    · exact .refl s

theorem tick_writesControlBytes (hp : pulse) (en : Bool) (s : State) : WritesControlBytes pulse s (tick en s) :=
  ((supervise_writesControlBytes en s).trans (poll_writesControlBytes hp _)).trans (fsmStep_writesControlBytes _)

end

/-- Settles O56: the flushes write shadows that R22 allows, and only CLEAR_ISR's write has `irq_clear` set. -/
theorem ownControlBytes : Obligations.OwnControlBytes := by
  intro i s t h hreset hwrite hshadow
  obtain ⟨hv, -, rfl⟩ := exec_eq_next.1 h
  suffices hown : WritesControlBytes (i = .clearIsr ∨ i = .capture ∨ i = .poll ∨ ∃ en, i = .tick en) s (effect i s) from
    (hown hv hshadow).2.2
  cases i with
  | regWrite idx data => exact absurd rfl (hwrite idx data)
  | powerOnReset => exact absurd rfl hreset
  | regRead idx => exact regRead_writesControlBytes idx.toNat s
  | readCount idx => exact readCount_writesControlBytes idx.toNat s
  | resetCounters b => exact resetCounters_writesControlBytes b s
  | enableIsr b => exact enableIsr_writesControlBytes b s
  | clearIsr => exact clearIsr_writesControlBytes (.inl rfl) s
  | setTuneMode m => exact setTuneMode_writesControlBytes m s
  | dacWrite v => exact dacWrite_writesControlBytes v s
  | capture => exact capture_writesControlBytes (.inr (.inl rfl)) s
  | poll => exact poll_writesControlBytes (.inr (.inr (.inl rfl))) s
  | fsmCoarseMin | fsmCoarseMax | fsmCoarseDone | fsmFineTune => exact fsmStep_writesControlBytes s
  | calCompute => exact calCompute_writesControlBytes s
  | fineCorrect => exact fineCorrect_writesControlBytes s
  | rearm => exact rearm_writesControlBytes s
  | tamerInit => exact tamerInit_writesControlBytes s
  | tamerDisable => exact setTuneMode_writesControlBytes (modeCode .disabled) s
  | supervise en => exact supervise_writesControlBytes en s
  | tick en => exact tick_writesControlBytes (.inr (.inr (.inr ⟨en, rfl⟩))) en s

end Sys2Proof.Machine

/-! The register interface (40_register_interface.md R100 to R107): what each operation writes and returns. -/

namespace Sys2Proof.Machine

open Observe

/-! One bit of a control byte -/

theorem getLsbD_or_mask (c : Byte) {mask : Byte} {j : Nat} (hj : j < 8) (hmask : mask = BitVec.twoPow 8 j) (k : Nat) :
    (c ||| mask).getLsbD k = if k = j then true else c.getLsbD k := by
  subst hmask
  by_cases hk : k = j
  · simp [hk, hj]
  · simp [hk, Ne.symm hk]

theorem getLsbD_and_mask (c : Byte) {mask : Byte} {j : Nat} (hmask : mask = ~~~BitVec.twoPow 8 j) (k : Nat) :
    (c &&& mask).getLsbD k = if k = j then false else c.getLsbD k := by
  subst hmask
  by_cases hk : k = j
  · simp [hk]
  · simpa [hk, Ne.symm hk] using BitVec.lt_of_getLsbD

theorem getLsbD_withReset (c : Byte) (b : Bool) (k : Nat) :
    (withReset c b).getLsbD k = if k = 0 then b else c.getLsbD k := by
  cases b
  · exact getLsbD_and_mask c (by decide) k
  · exact getLsbD_or_mask c (by decide) (by decide) k

theorem getLsbD_withIrqEnable (c : Byte) (b : Bool) (k : Nat) :
    (withIrqEnable c b).getLsbD k = if k = 1 then b else c.getLsbD k := by
  cases b
  · exact getLsbD_and_mask c (by decide) k
  · exact getLsbD_or_mask c (by decide) (by decide) k

theorem getLsbD_withIrqClear (c : Byte) (k : Nat) :
    (withIrqClear c).getLsbD k = if k = 2 then true else c.getLsbD k := getLsbD_or_mask c (by decide) (by decide) k

/-! Single accesses and single-bit writes -/

/-- Settles O14: REG_WRITE is one register write. -/
theorem regWriteAppendsOneWrite : Obligations.RegWriteAppendsOneWrite :=
  fun _ _ => ⟨rfl, fun _ hv => exec_of_valid hv rfl⟩

/-- Settles O15: REG_READ is one register read, its byte put in `ret`. -/
theorem regReadReturnsTheByteRead : Obligations.RegReadReturnsTheByteRead :=
  fun _ _ hv => ⟨_, _, exec_of_valid hv rfl⟩

/-- Settles O16: RESET_COUNTERS flushes the shadow with bit 0 set to `b`. -/
theorem resetCountersWritesBitZero : Obligations.ResetCountersWritesBitZero := by
  refine fun b => ⟨rfl, fun s hv => ⟨withReset s.ctrl b, exec_of_valid hv rfl, ?_, fun k hk => ?_⟩⟩
  · rw [getLsbD_withReset, if_pos rfl]
  · rw [getLsbD_withReset, if_neg hk]

/-- Settles O17: ENABLE_ISR flushes the shadow with bit 1 set to `b`. -/
theorem enableIsrWritesBitOne : Obligations.EnableIsrWritesBitOne := by
  refine fun b => ⟨rfl, fun s hv => ⟨withIrqEnable s.ctrl b, exec_of_valid hv rfl, ?_, fun k hk => ?_⟩⟩
  · rw [getLsbD_withIrqEnable, if_pos rfl]
  · rw [getLsbD_withIrqEnable, if_neg hk]

/-- Settles O18: CLEAR_ISR writes the shadow with bit 2 set and flushes nothing. -/
theorem clearIsrPulsesBitTwo : Obligations.ClearIsrPulsesBitTwo := by
  refine fun s hv => ⟨withIrqClear s.ctrl, exec_of_valid hv rfl, ?_, fun k hk => ?_⟩
  · rw [getLsbD_withIrqClear, if_pos rfl]
  · rw [getLsbD_withIrqClear, if_neg hk]

/-! The mode change -/

theorem exec_setTuneMode {s : State} (hv : s.cfg.valid = true) (m : BitVec 2) :
    exec (.setTuneMode m) s = .next (setTuneMode m s) := exec_of_valid hv rfl

/-- Settles O19: the codes that run, Disabled, and the unrecognised one. -/
theorem setTuneModeSequence : Obligations.SetTuneModeSequence := by
  refine ⟨fun _ => rfl, fun s hv hshadow => ⟨fun m hm => ?_, ?_, ?_⟩⟩
  · rw [exec_setTuneMode hv, setTuneMode_running hm hshadow]
  · have hfinal : ctrlByte 0b00 false true = 0x01 := by decide
    rw [exec_setTuneMode hv, setTuneMode_disabling hshadow, hfinal]
  · rw [exec_setTuneMode hv, setTuneMode_unrecognised]

theorem tamerDisable_ctrl (s : State) :
    (tamerDisable s).ctrl = withReset (withTuneMode (withIrqEnable s.ctrl false) 0b00) true := rfl

/-- R202: disabling ends in a flush. -/
theorem tamerDisable_shadowWritten (s : State) : ShadowWritten (tamerDisable s) :=
  setTuneMode_shadowWritten (.inl rfl) s

/-- The three fields that disabling sets have their values already when it is done again; the other bits it keeps. -/
theorem tamerDisable_ctrl_idempotent (s : State) : (tamerDisable (tamerDisable s)).ctrl = (tamerDisable s).ctrl := by
  simp only [tamerDisable_ctrl]
  generalize s.ctrl = c
  revert c
  decide

/-- Settles O20: the shadow that disabling leaves is a fixed point, and each disabling flushes it. -/
theorem disableTwiceIsDisableOnce : Obligations.DisableTwiceIsDisableOnce := by
  intro s t u ht hu
  obtain ⟨-, -, rfl⟩ := exec_eq_next.1 ht
  obtain ⟨-, -, rfl⟩ := exec_eq_next.1 hu
  refine ⟨tamerDisable_ctrl_idempotent s, ?_, tamerDisable_shadowWritten s⟩
  exact (tamerDisable_shadowWritten (tamerDisable s)).trans (congrArg some (tamerDisable_ctrl_idempotent s))

/-! The count -/

/-- Settles O21: READ_COUNT returns the count assembled from the four bytes it records. -/
theorem readCountIsLittleEndian : Obligations.ReadCountIsLittleEndian := by
  intro s idx hv hidx
  obtain ⟨b0, b1, b2, b3, hcount, -⟩ := readCount_spec idx.toNat s
  have hpermitted : (Instr.readCount idx).wellFormed s.cfg = true := decide_eq_true hidx
  refine ⟨b0, b1, b2, b3, _, s.env.answeredN 4, ?_, countOfBytes_toInt b0 b1 b2 b3⟩
  rw [exec_of_valid hv hpermitted, effect, hcount]

end Sys2Proof.Machine

/-! The DAC Trim Writer (41_dac_trim.md). -/

namespace Sys2Proof.Machine

/-- Settles O23: a value of at most `DAC_MAX` is permitted, so DAC_WRITE's effect is the two writes of R130. -/
theorem dacWriteLowThenHigh : Obligations.DacWriteLowThenHigh := by
  refine fun v => ⟨rfl, fun s hv hmax => ?_⟩
  have hpermitted : (Instr.dacWrite v).wellFormed s.cfg = true := decide_eq_true hmax
  rw [exec_of_valid hv hpermitted, effect, dacWrite_spec]

end Sys2Proof.Machine

/-! Measurement Capture (42_measurement_capture.md): what CAPTURE records and when POLL captures. -/

namespace Sys2Proof.Machine

/-! The record of a capture -/

/-- Settles O26: `capture_spec`, with the control bytes of a shadow that R22 allows written out field by field and the counts
as little-endian values. -/
theorem captureFillsTheRecord : Obligations.CaptureFillsTheRecord := by
  refine ⟨rfl, fun s hv ⟨hclear, hreserved, _⟩ => ?_⟩
  obtain ⟨a0, a1, a2, a3, b0, b1, b2, b3, c0, c1, c2, c3, st, l, rfl, hcapture, -⟩ := capture_spec s
  simp only [withIrqEnable_of_shadow hclear hreserved, withReset_ctrlByte] at hcapture
  refine ⟨a0, a1, a2, a3, b0, b1, b2, b3, c0, c1, c2, c3, st, _, _, _, s.env.answeredN 13, ?_,
    countOfBytes_toInt a0 a1 a2 a3, countOfBytes_toInt b0 b1 b2 b3, countOfBytes_toInt c0 c1 c2 c3⟩
  rw [exec_of_valid hv rfl, effect, hcapture]
  simp only [withIrqClear, List.append_assoc]

/-! CAPTURE does not depend on the record before it -/

/-- The record and its ready flag (R24 to R26), as one value. -/
structure Record where
  e1 : I32
  e10 : I32
  e100 : I32
  f1 : Bool
  f10 : Bool
  f100 : Bool
  ready : Bool

/-- The record a state holds. -/
def State.record (s : State) : Record := ⟨s.e1, s.e10, s.e100, s.f1, s.f10, s.f100, s.ready⟩

/-- `s` with the record `r` in place of its own. -/
def State.withRecord (s : State) (r : Record) : State :=
  { s with
    e1 := r.e1, e10 := r.e10, e100 := r.e100, f1 := r.f1, f10 := r.f10, f100 := r.f100, ready := r.ready }

@[simp] theorem State.withRecord_record (s : State) : s.withRecord s.record = s := rfl

theorem freezeCounters_withRecord (s : State) (r : Record) :
    freezeCounters (s.withRecord r) = (freezeCounters s).withRecord r := rfl

/-- The bus answers from the configuration, the trace and the environment alone (R75). -/
theorem readCount_withRecord (idx : Nat) (s : State) (r : Record) :
    readCount idx (s.withRecord r) = ((readCount idx s).1, (readCount idx s).2.withRecord r) := rfl

/-- R141 step 2, from what each of its three READ_COUNTs answers. -/
theorem readCounters_of_counts {s u1 u10 u100 : State} {n1 n10 n100 : I32}
    (h1 : readCount s.cfg.idxErr1s s = (n1, u1))
    (h10 : readCount s.cfg.idxErr10s { u1 with e1 := n1 } = (n10, u10))
    (h100 : readCount s.cfg.idxErr100s { u10 with e10 := n10 } = (n100, u100)) :
    readCounters s = { u100 with e100 := n100 } := by
  simp only [readCounters, h1, h10, h100]

/-- The counts that reach the record are the same whatever it held; its flags are not touched yet. -/
theorem readCounters_withRecord (s : State) (r : Record) :
    readCounters (s.withRecord r) =
      let c1 := readCount s.cfg.idxErr1s s
      let c10 := readCount s.cfg.idxErr10s c1.2
      let c100 := readCount s.cfg.idxErr100s c10.2
      c100.2.withRecord { r with e1 := c1.1, e10 := c10.1, e100 := c100.1 } :=
  readCounters_of_counts (readCount_withRecord _ _ _) (readCount_withRecord _ _ { r with e1 := _ })
    (readCount_withRecord _ _ { r with e1 := _, e10 := _ })

/-- R143: the counts, the flags and the ready flag are all written, so CAPTURE overwrites any record. -/
theorem capture_withRecord (s : State) (q r : Record) : capture (s.withRecord q) = capture (s.withRecord r) := by
  rw [capture, capture, freezeCounters_withRecord, freezeCounters_withRecord, readCounters_withRecord,
    readCounters_withRecord]
  rfl

/-- Settles O29: both states are `s` under some record. -/
theorem captureOverwritesAnUnconsumedRecord : Obligations.CaptureOverwritesAnUnconsumedRecord := by
  intro s e1 e10 e100 f1 f10 f100 ready hv
  have hsame := capture_withRecord s ⟨e1, e10, e100, f1, f10, f100, ready⟩ s.record
  rw [State.withRecord_record] at hsame
  refine ⟨capture s, rfl, exec_of_valid hv rfl, ?_⟩
  rw [← hsame]
  exact exec_of_valid hv rfl

/-! POLL -/

theorem poll_of_gated {s : State} (h : gated s = true) : poll s = s := if_pos h

theorem poll_of_stat_zero {s : State} (h : Ungated s) (hstat : (regRead s.cfg.idxStat s).1 = 0) :
    poll s = (regRead s.cfg.idxStat s).2 := by
  simp [poll, gated_eq_false.2 h, statPending, hstat]

theorem poll_of_stat_ne_zero {s : State} (h : Ungated s) (hstat : (regRead s.cfg.idxStat s).1 ≠ 0) :
    poll s = capture (regRead s.cfg.idxStat s).2 := by
  have hpending : statPending (regRead s.cfg.idxStat s).1 = true := bne_iff_ne.2 hstat
  simp [poll, gated_eq_false.2 h, hpending]

/-- Settles O27: gated; a zero STAT byte; any other one, where CAPTURE runs from the state the STAT read leaves. -/
theorem pollCapturesWhenStatIsNonZero : Obligations.PollCapturesWhenStatIsNonZero := by
  refine ⟨rfl, fun s hv => ⟨fun hoff hparam => ?_, fun h => ⟨(regRead s.cfg.idxStat s).1, s.env.answered, ?_, ?_⟩⟩⟩
  · have hgated : gated s = true := by simp [gated, hoff, hparam]
    rw [exec_of_valid hv rfl, effect, poll_of_gated hgated]
  · intro hstat
    rw [exec_of_valid hv rfl, effect, poll_of_stat_zero h hstat]
    rfl
  · intro hstat
    refine ⟨capture (regRead s.cfg.idxStat s).2, ?_, exec_of_valid hv rfl⟩
    rw [exec_of_valid hv rfl, effect, poll_of_stat_ne_zero h hstat]

end Sys2Proof.Machine

/-! The calibration state machine (43_calibration_fsm.md): the line and the correction, the four arms of FSM_STEP, and how a
calibration session runs through them. -/

namespace Sys2Proof.Machine

/-! The line and the correction -/

theorem clamp_zero_eq_max_min (v : Int) (m : Nat) : clamp v 0 m = max 0 (min (m : Int) v) := by
  unfold clamp
  split
  · omega
  · split <;> omega

/-- R11, R7: a DAC count clamped to the DAC's range is held exactly. -/
theorem u16OfInt_clamp_dacMax {c : Config} (hv : c.valid = true) (v : Int) :
    ((u16OfInt (clamp v 0 c.dacMax)).toNat : Int) = max 0 (min (c.dacMax : Int) v) := by
  obtain ⟨-, hmax, -⟩ := Config.dac_of_valid hv
  rw [u16OfInt_clamp v c.dacMax hmax, clamp_zero_eq_max_min]

theorem calCompute_of_x_eq {s : State} (h : s.x1 = s.x0) :
    calCompute s = { s with yint := u16OfNat s.cfg.dacDegenerateDefault } := if_pos h

theorem calCompute_of_x_ne {s : State} (h : s.x1 ≠ s.x0) :
    calCompute s = { s with
      slope := lineSlope s.x0 s.y0 s.x1 s.y1
      yint := lineIntercept s.cfg.dacMax (lineSlope s.x0 s.y0 s.x1 s.y1) s.x0 s.y0 } := if_neg h

/-- Settles O30: the degenerate branch of CAL_COMPUTE, whose default fits the DAC. -/
theorem degenerateCalibration : Obligations.DegenerateCalibration := by
  intro s hv hx
  obtain ⟨-, hmax, -, -, -, hdefault⟩ := Config.dac_of_valid hv
  refine ⟨u16OfNat s.cfg.dacDegenerateDefault, ?_, u16OfNat_toNat _ (hdefault.trans hmax)⟩
  rw [exec_of_valid hv rfl, effect, calCompute_of_x_eq hx]

/-- Settles O31: the other branch of CAL_COMPUTE, whose intercept is clamped to the DAC's range. -/
theorem calibrationLine : Obligations.CalibrationLine := by
  intro s hv hx
  refine ⟨_, _, ?_, rfl, u16OfInt_clamp_dacMax hv _⟩
  rw [exec_of_valid hv rfl, effect, calCompute_of_x_ne hx]
  rfl

/-- R164: CAL_COMPUTE neither reads nor writes the ready flag. -/
theorem calCompute_withReady (s : State) (b : Bool) :
    calCompute { s with ready := b } = { calCompute s with ready := b } := by
  unfold calCompute
  split <;> rfl

theorem fineCorrect_of_none {s : State} (h : selectedEpoch s = none) : fineCorrect s = s := by
  simp only [fineCorrect, h]

theorem fineCorrect_of_some {s : State} {e k : Int} (h : selectedEpoch s = some (e, k)) :
    fineCorrect s =
      dacWrite (u16OfInt (clamp ((s.trim.toNat : Int) - correction s.slope e k) 0 s.cfg.dacMax)) s := by
  simp only [fineCorrect, h]

/-- R167: the priority of the three epochs. -/
theorem selectedEpoch_eq_some {s : State} {e : I32} {k : Int}
    (h : s.f1 = true ∧ e = s.e1 ∧ k = 1 ∨ s.f1 = false ∧ s.f10 = true ∧ e = s.e10 ∧ k = 10 ∨
      s.f1 = false ∧ s.f10 = false ∧ s.f100 = true ∧ e = s.e100 ∧ k = 100) :
    selectedEpoch s = some (e.toInt, k) := by
  rcases h with ⟨h1, rfl, rfl⟩ | ⟨h1, h10, rfl, rfl⟩ | ⟨h1, h10, h100, rfl, rfl⟩
  · simp [selectedEpoch, h1]
  · simp [selectedEpoch, h1, h10]
  · simp [selectedEpoch, h1, h10, h100]

/-- Settles O35: no epoch, no correction; otherwise one DAC write of the corrected trim, clamped to the DAC's range. -/
theorem fineCorrectUsesTheFinestEpoch : Obligations.FineCorrectUsesTheFinestEpoch := by
  refine ⟨rfl, fun s hv => ⟨fun h1 h10 h100 => ?_, fun e k hsel => ⟨_, ?_, u16OfInt_clamp_dacMax hv _⟩⟩⟩
  · have hnone : selectedEpoch s = none := by simp [selectedEpoch, h1, h10, h100]
    rw [exec_of_valid hv rfl, effect, fineCorrect_of_none hnone]
  · rw [exec_of_valid hv rfl, effect, fineCorrect_of_some (selectedEpoch_eq_some hsel), dacWrite_spec]
    rfl

/-! The arms of FSM_STEP -/

/-- R92: each of the four rows runs FSM_STEP. -/
theorem exec_fsmRow_eq_next {ts : TuneState} {s t : State} :
    exec (.fsmRow ts) s = .next t ↔ s.cfg.valid = true ∧ t = fsmStep s := by
  rw [exec_eq_next, wellFormed_fsmRow, effect_fsmRow, eq_self, true_and]

section
variable {s : State}

theorem fsmStep_coarseTuneMin (hu : Ungated s) (hr : s.ready = true) (h : s.tstate = .coarseTuneMin) :
    fsmStep s = rearm (coarseMinArm { s with ready := false }) := by
  simp only [fsmStep_of_ready hu hr, fsmArm, h]

theorem fsmStep_coarseTuneMax (hu : Ungated s) (hr : s.ready = true) (h : s.tstate = .coarseTuneMax) :
    fsmStep s = rearm (coarseMaxArm { s with ready := false }) := by
  simp only [fsmStep_of_ready hu hr, fsmArm, h]

theorem fsmStep_coarseTuneDone (hu : Ungated s) (hr : s.ready = true) (h : s.tstate = .coarseTuneDone) :
    fsmStep s = rearm (coarseDoneArm { s with ready := false }) := by
  simp only [fsmStep_of_ready hu hr, fsmArm, h]

theorem fsmStep_fineTune (hu : Ungated s) (hr : s.ready = true) (h : s.tstate = .fineTune) :
    fsmStep s = rearm (fineCorrect { s with ready := false }) := by
  simp only [fsmStep_of_ready hu hr, fsmArm, h, fineTuneArm]

end

/-- R161, R162, R169: how an arm that seeds a bracket point ends: the DAC is driven to `n`, the counters are reset, and REARM
releases them again and enables interrupts. -/
theorem rearm_seedPoint {s : State} (h : ShadowOk s.ctrl) (n : Nat) (ts : TuneState) :
    rearm { resetCounters true (dacWrite (u16OfNat n) s) with tstate := ts } = { s with
      trim := u16OfNat n
      ctrl := ctrlByte (ctrlTuneMode s.ctrl) true false
      tstate := ts
      trace := s.trace ++ dacWrites s.cfg n ++
        [ctrlWrite s.cfg (ctrlByte (ctrlTuneMode s.ctrl) (ctrlIrqEnable s.ctrl) true),
         ctrlWrite s.cfg (ctrlByte (ctrlTuneMode s.ctrl) (ctrlIrqEnable s.ctrl) false),
         ctrlWrite s.cfg (ctrlByte (ctrlTuneMode s.ctrl) true false)] } := by
  obtain ⟨hclear, hreserved, -⟩ := h
  simp only [rearm_eq, resetCounters_eq, dacWrite_spec, dacWrites_u16OfNat, withReset_of_shadow hclear hreserved,
    withReset_ctrlByte, withIrqEnable_ctrlByte, ctrlWrite, List.append_assoc, List.cons_append, List.nil_append]

/-- R163, R169: how the arm that finishes the coarse calibration ends: the intercept is driven, STATE is marked, and REARM
releases the counters and enables interrupts. -/
theorem rearm_markCoarseDone {s : State} (h : ShadowOk s.ctrl) :
    rearm { regWrite s.cfg.idxState s.cfg.stateValCoarseDone (dacWrite s.yint s) with tstate := .fineTune } = { s with
      trim := s.yint
      ctrl := ctrlByte (ctrlTuneMode s.ctrl) true false
      tstate := .fineTune
      trace := s.trace ++ dacWrites s.cfg s.yint.toNat ++
        [.write s.cfg.idxState s.cfg.stateValCoarseDone,
         ctrlWrite s.cfg (ctrlByte (ctrlTuneMode s.ctrl) (ctrlIrqEnable s.ctrl) false),
         ctrlWrite s.cfg (ctrlByte (ctrlTuneMode s.ctrl) true false)] } := by
  obtain ⟨hclear, hreserved, -⟩ := h
  simp only [rearm_eq, regWrite, dacWrite_spec, withReset_of_shadow hclear hreserved, withIrqEnable_ctrlByte, ctrlWrite,
    List.append_assoc, List.cons_append, List.nil_append]

/-- Settles O36: `rearm_of_shadow`. -/
theorem rearmReleasesThenEnables : Obligations.RearmReleasesThenEnables :=
  ⟨rfl, fun _ hv hshadow => exec_eq_next.2 ⟨hv, rfl, (rearm_of_shadow hshadow).symm⟩⟩

/-- Settles O37: FSM_STEP acts only on a ready record, and only when it is not gated. -/
theorem fsmStepIdlesWithoutARecord : Obligations.FsmStepIdlesWithoutARecord := by
  intro s ts hv hidle
  rw [exec_fsmRow hv, fsmStep_idle]
  rintro ⟨hready, hungated⟩
  rcases hidle with hnone | ⟨hoff, hparam⟩
  · simp [hnone] at hready
  · simp [Ungated, hoff, hparam] at hungated

/-- Settles O38: the arm seeds the first point at TRIMDAC_MIN. -/
theorem coarseMinArm_spec : Obligations.CoarseMinArm := by
  intro s ts hv hshadow hungated hready hstate
  rw [exec_fsmRow hv, fsmStep_coarseTuneMin hungated hready hstate]
  exact congrArg _ (rearm_seedPoint (s := { s with ready := false }) hshadow _ _)

/-- Settles O39: the arm records point 0 and seeds the second point at TRIMDAC_MAX. -/
theorem coarseMaxArm_spec : Obligations.CoarseMaxArm := by
  intro s ts hv hshadow hungated hready hstate
  rw [exec_fsmRow hv, fsmStep_coarseTuneMax hungated hready hstate]
  exact congrArg _ (rearm_seedPoint
    (s := { s with ready := false, x0 := s.e1, y0 := u16OfNat s.cfg.trimdacMin }) hshadow _ _)

/-- Settles O40: the arm records point 1 and runs CAL_COMPUTE on it; the intercept that leaves is the one driven. -/
theorem coarseDoneArm_spec : Obligations.CoarseDoneArm := by
  intro s ts hv hshadow hungated hready hstate
  obtain ⟨m, y, hline, -⟩ := calCompute_eq { s with x1 := s.e1, y1 := u16OfNat s.cfg.trimdacMax }
  have hconsumed := calCompute_withReady { s with x1 := s.e1, y1 := u16OfNat s.cfg.trimdacMax } false
  rw [hline] at hconsumed
  refine ⟨m, y, exec_eq_next.2 ⟨hv, rfl, hline.symm⟩, ?_⟩
  rw [exec_fsmRow hv, fsmStep_coarseTuneDone hungated hready hstate, coarseDoneArm, hconsumed]
  exact congrArg _ (rearm_markCoarseDone hshadow)

/-- Settles O41: the arm is FINE_CORRECT on the state whose record is consumed, and REARM ends the step. -/
theorem fineTuneArm_spec : Obligations.FineTuneArm := by
  intro s ts hv hungated hready hstate
  obtain ⟨v, tr, hcorrect⟩ := fineCorrect_frame { s with ready := false }
  have hstep := fsmStep_fineTune hungated hready hstate
  rw [hcorrect] at hstep
  refine ⟨_, _, exec_eq_next.2 ⟨hv, rfl, hcorrect.symm⟩, exec_of_valid hv rfl, ?_, hstate, rfl⟩
  rw [exec_fsmRow hv, hstep]
  rfl

/-! The transition table -/

/-- R170: the table, for a record that FSM_STEP consumes. -/
def nextTuneState : TuneState → TuneState
  | .coarseTuneMin => .coarseTuneMax
  | .coarseTuneMax => .coarseTuneDone
  | .coarseTuneDone => .fineTune
  | .fineTune => .fineTune

theorem fsmStep_tstate_of_ready {s : State} (hu : Ungated s) (hr : s.ready = true) :
    (fsmStep s).tstate = nextTuneState s.tstate := by
  obtain ⟨hmin, hmax, hdone, hfine⟩ := fsmStep_arms hr hu
  cases ht : s.tstate with
  | coarseTuneMin =>
    obtain ⟨c, v, tr, he⟩ := hmin ht
    rw [he]
    rfl
  | coarseTuneMax =>
    obtain ⟨c, v, tr, he⟩ := hmax ht
    rw [he]
    rfl
  | coarseTuneDone =>
    obtain ⟨c, v, tr, m, y, he⟩ := hdone ht
    rw [he]
    rfl
  | fineTune =>
    obtain ⟨c, v, tr, he⟩ := hfine ht
    rw [he]
    exact ht

/-- R31: besides FSM_STEP, SUPERVISE, TICK and POWER_ON_RESET no operation writes the TuneState. -/
theorem effect_tstate_of_other {i : Instr} (s : State) (hfsm : ∀ ts, i ≠ .fsmRow ts) (hsup : ∀ en, i ≠ .supervise en)
    (htick : ∀ en, i ≠ .tick en) (hreset : i ≠ .powerOnReset) : (effect i s).tstate = s.tstate := by
  cases effectCase i s with
  | control c tr r e he => rw [he]
  | dac v he => rw [he, dacWrite_spec]
  | calCompute =>
    obtain ⟨m, y, he, -⟩ := calCompute_eq s
    rw [effect, he]
  | capture =>
    obtain ⟨c, e1, e10, e100, f1, f10, f100, tr, env, he⟩ := capture_frame s
    rw [effect, he]
  | poll =>
    obtain ⟨c, e1, e10, e100, f1, f10, f100, r, tr, env, he, -⟩ := poll_frame s
    rw [effect, he]
  | fsmStep ts => exact absurd rfl (hfsm ts)
  | supervise en => exact absurd rfl (hsup en)
  | tick en => exact absurd rfl (htick en)
  | powerOnReset => exact absurd rfl hreset

/-- Settles O42: FSM_STEP by the table, SUPERVISE by its edges, every other operation by its frame. -/
theorem transitionTable : Obligations.TransitionTable := by
  intro i s t h
  obtain ⟨-, -, rfl⟩ := exec_eq_next.1 h
  refine ⟨?_, ?_, effect_tstate_of_other s⟩
  · rintro ts rfl
    rw [effect_fsmRow]
    split
    · rename_i hact
      obtain ⟨hready, hungated⟩ := hact
      rw [fsmStep_tstate_of_ready hungated hready]
      rfl
    · rename_i hidle
      rw [fsmStep_idle hidle]
  · rintro en rfl
    obtain ⟨c, tr, ts, r, he, hts⟩ := supervise_frame en s
    rw [effect, he]
    exact hts

/-! A calibration session -/

/-- Under the configuration `c` a ready record awaits an FSM_STEP in TuneState `ts`. -/
structure RecordAwaits (c : Config) (ts : TuneState) (s : State) : Prop where
  cfg : s.cfg = c
  ungated : Ungated s
  ready : s.ready = true
  tstate : s.tstate = ts

section
variable {c : Config} {ts : TuneState} {s : State}

theorem RecordAwaits.fsmStep_tstate (h : RecordAwaits c ts s) : (fsmStep s).tstate = nextTuneState ts := by
  rw [fsmStep_tstate_of_ready h.ungated h.ready, h.tstate]

/-- R170, R141: the step and one more CAPTURE, and a record awaits the step of the next TuneState. -/
theorem RecordAwaits.next (h : RecordAwaits c ts s) : RecordAwaits c (nextTuneState ts) (capture (fsmStep s)) := by
  obtain ⟨e1, e10, e100, f1, f10, f100, ctrl, tr, env, hcapture⟩ := capture_frame (fsmStep s)
  obtain ⟨r, ctrl', v, x0, x1, y0, y1, m, y, ts', tr', hstep⟩ := fsmStep_frame s
  have htstate := h.fsmStep_tstate
  rw [hstep] at htstate
  rw [hcapture, hstep]
  exact ⟨h.cfg, h.ungated, rfl, htstate⟩

/-- R162: the step in CoarseTuneMax sets point 0, and a CAPTURE keeps it. -/
theorem RecordAwaits.point0 (h : RecordAwaits c .coarseTuneMax s) :
    (capture (fsmStep s)).x0 = s.e1 ∧ (capture (fsmStep s)).y0 = u16OfNat c.trimdacMin := by
  obtain ⟨e1, e10, e100, f1, f10, f100, ctrl, tr, env, hcapture⟩ := capture_frame (fsmStep s)
  obtain ⟨-, hmax, -⟩ := fsmStep_arms h.ready h.ungated
  obtain ⟨ctrl', v, tr', hstep⟩ := hmax h.tstate
  rw [hcapture, hstep, h.cfg]
  exact ⟨rfl, rfl⟩

/-- R163: the step in CoarseTuneDone sets point 1 and keeps point 0. -/
theorem RecordAwaits.point1 (h : RecordAwaits c .coarseTuneDone s) :
    (fsmStep s).x0 = s.x0 ∧ (fsmStep s).y0 = s.y0 ∧ (fsmStep s).x1 = s.e1 ∧
      (fsmStep s).y1 = u16OfNat c.trimdacMax := by
  obtain ⟨-, -, hdone, -⟩ := fsmStep_arms h.ready h.ungated
  obtain ⟨ctrl, v, tr, m, y, hstep⟩ := hdone h.tstate
  rw [hstep, h.cfg]
  exact ⟨rfl, rfl, rfl, rfl⟩

end

/-- Settles O43: the three steps each find a record awaiting them, the second sets point 0 and the third point 1. -/
theorem threeRecordsReachFineTune : Obligations.ThreeRecordsReachFineTune := by
  intro s0 s1 s2 s3 s4 s5 hungated hready hstate h1 h2 h3 h4 h5
  obtain ⟨hv, rfl⟩ := exec_fsmRow_eq_next.1 h1
  obtain ⟨-, -, rfl⟩ := exec_eq_next.1 h2
  obtain ⟨-, rfl⟩ := exec_fsmRow_eq_next.1 h3
  obtain ⟨-, -, rfl⟩ := exec_eq_next.1 h4
  obtain ⟨-, rfl⟩ := exec_fsmRow_eq_next.1 h5
  have first : RecordAwaits s0.cfg .coarseTuneMin s0 := ⟨rfl, hungated, hready, hstate⟩
  have second : RecordAwaits s0.cfg .coarseTuneMax (capture (fsmStep s0)) := first.next
  have third : RecordAwaits s0.cfg .coarseTuneDone (capture (fsmStep (capture (fsmStep s0)))) := second.next
  obtain ⟨hx0, hy0⟩ := second.point0
  obtain ⟨kx0, ky0, hx1, hy1⟩ := third.point1
  obtain ⟨-, hmax, hlow, hhigh, -⟩ := Config.dac_of_valid hv
  refine ⟨first.fsmStep_tstate, second.fsmStep_tstate, third.fsmStep_tstate, kx0.trans hx0, ?_, hx1, ?_⟩
  · exact (congrArg BitVec.toNat (ky0.trans hy0)).trans (u16OfNat_toNat _ (hlow.trans hmax))
  · exact (congrArg BitVec.toNat hy1).trans (u16OfNat_toNat _ (hhigh.trans hmax))

/-- R171: in FineTune a step writes at most the mailbox flag, the shadow and the trim. -/
theorem fsmStep_fineTune_frame {s : State} (h : s.tstate = .fineTune) :
    ∃ (r : Bool) (c : Byte) (v : U16) (tr : List Txn),
      fsmStep s = { s with ready := r, ctrl := c, trim := v, trace := tr } := by
  by_cases hact : s.ready = true ∧ Ungated s
  · obtain ⟨hready, hungated⟩ := hact
    obtain ⟨-, -, -, hfine⟩ := fsmStep_arms hready hungated
    obtain ⟨c, v, tr, he⟩ := hfine h
    exact ⟨_, _, _, _, he⟩
  · exact ⟨_, _, _, _, fsmStep_idle hact⟩

/-- Settles O44: SUPERVISE sees no edge, POLL writes at most the record, and the step is one in FineTune. -/
theorem sessionKeepsTheCalibrationLine : Obligations.SessionKeepsTheCalibrationLine := by
  rintro s en hv hstate rfl
  refine ⟨tick s.enQ s, exec_of_valid hv rfl, ?_⟩
  obtain ⟨c, e1, e10, e100, f1, f10, f100, r, tr, env, hpoll, -⟩ := poll_frame s
  obtain ⟨r', c', v, tr', hstep⟩ := fsmStep_fineTune_frame (s := poll s) (by rwa [hpoll])
  rw [tick, supervise_self, hstep, hpoll]
  exact ⟨hstate, rfl, rfl, rfl, rfl, rfl, rfl⟩

end Sys2Proof.Machine

/-! The supervisory loop (44_supervisory.md): tamer init and tamer disable, the edges of the enable, and the three phases
of TICK. -/

namespace Sys2Proof.Machine

/-! Tamer init and tamer disable -/

/-- R201, from a shadow R22 allows. -/
theorem tamerInit_of_shadow {s : State} (h : ShadowOk s.ctrl) :
    tamerInit s = { s with
      ctrl := ctrlByte 0b01 true false
      trace := s.trace ++ [ctrlWrite s.cfg (ctrlByte (ctrlTuneMode s.ctrl) false (ctrlReset s.ctrl)),
        ctrlWrite s.cfg (ctrlByte 0b01 false (ctrlReset s.ctrl)), ctrlWrite s.cfg (ctrlByte 0b01 false true),
        ctrlWrite s.cfg (ctrlByte 0b01 false false), ctrlWrite s.cfg (ctrlByte 0b01 true false),
        .write s.cfg.idxState Config.stateValInit] } := by
  simp only [tamerInit, modeCode, setTuneMode_running (.inl rfl) h, regWrite, List.append_assoc, List.cons_append,
    List.nil_append]

/-- Settles O46: the mode change to OnePPS and the STATE write, with the last three control bytes evaluated. -/
theorem tamerInitSequence : Obligations.TamerInitSequence := by
  refine ⟨rfl, fun s hv hshadow => ?_⟩
  have hheld : ctrlByte 0b01 false true = 0x41 := by decide
  have hreleased : ctrlByte 0b01 false false = 0x40 := by decide
  have hfinal : ctrlByte 0b01 true false = 0x42 := by decide
  rw [exec_of_valid hv rfl, effect, tamerInit_of_shadow hshadow, hheld, hreleased, hfinal, Config.stateValInit]

/-- Settles O47: TAMER_DISABLE is the mode change to Disabled and no more. -/
theorem tamerDisableSequence : Obligations.TamerDisableSequence := by
  refine ⟨rfl, fun s hv hshadow => ?_⟩
  have hfinal : ctrlByte 0b00 false true = 0x01 := by decide
  rw [exec_of_valid hv rfl, effect, tamerDisable, modeCode, setTuneMode_disabling hshadow, hfinal]

/-! The edges of the enable -/

section
variable {s : State}

theorem supervise_rising (h : s.enQ = false) :
    supervise true s = { tamerInit s with tstate := .coarseTuneMin, ready := true, enQ := true } := by
  have hrising : risingEdge true s = true := by simp [risingEdge, h]
  rw [supervise, superviseEdge, if_pos hrising]

theorem supervise_falling (h : s.enQ = true) :
    supervise false s = { tamerDisable s with tstate := .coarseTuneMin, ready := false, enQ := false } := by
  have hrising : ¬risingEdge false s = true := by simp [risingEdge]
  have hfalling : fallingEdge false s = true := by simp [fallingEdge, h]
  rw [supervise, superviseEdge, if_neg hrising, if_pos hfalling]

end

/-- Settles O48: the rising edge, the falling edge, and no edge. -/
theorem superviseEdges : Obligations.SuperviseEdges := by
  refine ⟨fun _ => rfl, fun s hv => ⟨fun hoff => ?_, fun hon => ?_, ?_⟩⟩
  · exact ⟨tamerInit s, exec_of_valid hv rfl, exec_eq_next.2 ⟨hv, rfl, (supervise_rising hoff).symm⟩⟩
  · exact ⟨tamerDisable s, exec_of_valid hv rfl, exec_eq_next.2 ⟨hv, rfl, (supervise_falling hon).symm⟩⟩
  · exact exec_eq_next.2 ⟨hv, rfl, (supervise_self s).symm⟩

/-! What the phases of TICK keep -/

@[simp] theorem supervise_enQ (en : Bool) (s : State) : (supervise en s).enQ = en := rfl

@[simp] theorem supervise_cfg (en : Bool) (s : State) : (supervise en s).cfg = s.cfg := by
  obtain ⟨c, tr, ts, r, he, -⟩ := supervise_frame en s
  rw [he]

@[simp] theorem supervise_trim (en : Bool) (s : State) : (supervise en s).trim = s.trim := by
  obtain ⟨c, tr, ts, r, he, -⟩ := supervise_frame en s
  rw [he]

@[simp] theorem poll_enQ (s : State) : (poll s).enQ = s.enQ := by
  obtain ⟨c, e1, e10, e100, f1, f10, f100, r, tr, env, he, -⟩ := poll_frame s
  rw [he]

@[simp] theorem poll_cfg (s : State) : (poll s).cfg = s.cfg := by
  obtain ⟨c, e1, e10, e100, f1, f10, f100, r, tr, env, he, -⟩ := poll_frame s
  rw [he]

@[simp] theorem fsmStep_enQ (s : State) : (fsmStep s).enQ = s.enQ := by
  obtain ⟨r, c, v, x0, x1, y0, y1, m, y, ts, tr, he⟩ := fsmStep_frame s
  rw [he]

/-! TICK -/

/-- Settles O49: each phase keeps the configuration, so each completes. -/
theorem tickIsSupervisePollStep : Obligations.TickIsSupervisePollStep := by
  refine fun en => ⟨rfl, fun s hv => ?_⟩
  have hsupervised : (supervise en s).cfg.valid = true := by rwa [supervise_cfg]
  have hpolled : (poll (supervise en s)).cfg.valid = true := by rwa [poll_cfg]
  exact ⟨supervise en s, poll (supervise en s), tick en s, exec_of_valid hv rfl, exec_of_valid hsupervised rfl,
    exec_fsmRow hpolled, exec_of_valid hv rfl⟩

/-- R160, R203: a step that is not gated consumes the record if there is one. -/
theorem fsmStep_ready_of_ungated {s : State} (hu : Ungated s) : (fsmStep s).ready = false := by
  cases hr : s.ready with
  | true =>
    obtain ⟨c, v, x0, x1, y0, y1, m, y, ts, tr, he⟩ := fsmArm_frame { s with ready := false }
    rw [fsmStep_of_ready hu hr, he]
    rfl
  | false =>
    rw [fsmStep_idle (by simp [hr]), hr]

/-- Settles O50: SUPERVISE latches the enable first, so the step sees the level that ungates it and takes any record. -/
theorem ungatedTickLeavesNoRecord : Obligations.UngatedTickLeavesNoRecord := by
  intro s en hv hen
  have hungated : Ungated (poll (supervise en s)) := by simpa [Ungated] using hen
  exact ⟨tick en s, exec_of_valid hv rfl, fsmStep_ready_of_ungated hungated, by simp [tick]⟩

theorem fsmStep_of_gated {s : State} (h : gated s = true) : fsmStep s = s := if_pos h

/-- Settles O51: once SUPERVISE has latched 0 both other phases are gated. -/
theorem disabledTickOnlySupervises : Obligations.DisabledTickOnlySupervises := by
  intro s hv hparam
  have hgated : gated (supervise false s) = true := by simp [gated, hparam]
  have htick : tick false s = supervise false s := by rw [tick, poll_of_gated hgated, fsmStep_of_gated hgated]
  exact ⟨supervise false s, exec_eq_next.2 ⟨hv, rfl, htick.symm⟩, exec_of_valid hv rfl⟩

/-! A disable and a re-enable -/

/-- R161: the arm drives the DAC to TRIMDAC_MIN, and REARM leaves it there. -/
theorem RecordAwaits.coarseMin_trim {c : Config} {s : State} (h : RecordAwaits c .coarseTuneMin s) :
    (fsmStep s).trim = u16OfNat c.trimdacMin := by
  rw [fsmStep_coarseTuneMin h.ungated h.ready h.tstate, ← h.cfg]
  rfl

/-- R200: a rising edge forces a record, which awaits its step in CoarseTuneMin. -/
theorem recordAwaits_of_rising {s : State} (h : s.enQ = false) :
    RecordAwaits s.cfg .coarseTuneMin (supervise true s) := by
  refine ⟨supervise_cfg true s, .inl rfl, ?_, ?_⟩ <;> rw [supervise_rising h]

/-- Settles O52: the falling edge clears the ready flag; the record the rising edge forces is the one then consumed. -/
theorem disableDiscardsThePendingRecord : Obligations.DisableDiscardsThePendingRecord := by
  intro s a b hon ha hb
  obtain ⟨hv, -, rfl⟩ := exec_eq_next.1 ha
  obtain ⟨hva, -, rfl⟩ := exec_eq_next.1 hb
  have hcleared : (supervise false s).ready = false := by rw [supervise_falling hon]
  have hforced : RecordAwaits s.cfg .coarseTuneMin (supervise true (supervise false s)) := by
    simpa using recordAwaits_of_rising (supervise_enQ false s)
  have hvb : (supervise true (supervise false s)).cfg.valid = true := by rwa [hforced.cfg]
  obtain ⟨-, hmax, hlow, -⟩ := Config.dac_of_valid hv
  refine ⟨hcleared, supervise_trim false s, hforced.ready, hforced.tstate, _, exec_fsmRow hvb, hforced.fsmStep_tstate,
    fsmStep_ready_of_ungated hforced.ungated, ?_⟩
  exact (congrArg BitVec.toNat hforced.coarseMin_trim).trans (u16OfNat_toNat _ (hlow.trans hmax))

end Sys2Proof.Machine

/-! The refusals (60_exceptions.md R224): which operations complete, and the name under which each of the others is refused. -/

namespace Sys2Proof.Machine

/-- Settles O6: `effect` gives the next state of every permitted operation. -/
theorem operationCompletesExactlyWhenPermitted : Obligations.OperationCompletesExactlyWhenPermitted := by
  intro i s
  constructor
  · rintro ⟨t, ht⟩
    obtain ⟨hv, hw, -⟩ := exec_eq_next.1 ht
    exact ⟨hv, hw⟩
  · rintro ⟨hv, hw⟩
    exact ⟨effect i s, exec_of_valid hv hw⟩

/-- Log entry 13: the configuration is looked at before the operand. -/
theorem acceptIf_of_invalid {s : State} (h : s.cfg.valid = false) (ok : Bool) (r : Refusal) (t : State) :
    acceptIf ok r s t = .refused .badConfiguration := by
  cases ok
  · simp [acceptIf, h]
  · exact accept_of_invalid h

theorem acceptIf_of_operand_refused {s : State} (hv : s.cfg.valid = true) {ok : Bool} (hok : ok = false) (r : Refusal)
    (t : State) : acceptIf ok r s t = .refused r := by
  simp [acceptIf, hok, hv]

/-- R7, R253: no operation has a meaning under a bad configuration. -/
theorem exec_of_invalid {s : State} (h : s.cfg.valid = false) (i : Instr) : exec i s = .refused .badConfiguration := by
  cases i
  case readCount idx => exact acceptIf_of_invalid h _ _ _
  case dacWrite v => exact acceptIf_of_invalid h _ _ _
  all_goals exact accept_of_invalid h

/-- R92: the word a step takes is refused as it stands when it spells no operation; the configuration plays no part. -/
theorem step_of_undefined {s : State} {w : OpWord}
    (h : decode s.tstate (nextOpWord s).1 = .error (.undefinedOperation w)) :
    step s = .refused (.undefinedOperation w) := by
  simp only [step, h]

/-- Settles O7: an undefined word matches no row (R92), and the three other refusals are those of `accept` and
`acceptIf`. -/
theorem refusalsByName : Obligations.RefusalsByName := by
  intro s
  refine ⟨?_, ?_, ?_, exec_of_invalid⟩
  · intro w rest hpending hnone
    refine step_of_undefined ?_
    rw [nextOpWord_of_pending hpending]
    exact (undefinedWordsMatchNoRow s.tstate w).2 hnone
  · intro v hv hrange
    exact acceptIf_of_operand_refused hv (decide_eq_false (Nat.not_le.2 hrange)) _ _
  · intro idx hv hrange
    exact acceptIf_of_operand_refused hv (decide_eq_false (Nat.not_le.2 hrange)) _ _

end Sys2Proof.Machine

/-! Reset and hazards (70_reset_and_hazards.md): the power-on state, the hazards that the block's rules create, and how
many transactions each operation performs. -/

namespace Sys2Proof.Machine

open Observe

/-! Power-on -/

/-- Settles O8: `powerOnReset_eq`, field by field; the returned value and the environment stay. -/
theorem powerOnResetState : Obligations.PowerOnResetState := by
  refine ⟨rfl, fun s hv => ⟨s.ret, s.env, ?_⟩⟩
  rw [exec_of_valid hv rfl, effect, powerOnReset_eq]
  rfl

/-- Settles O9: POWER_ON_RESET takes the reset state to itself. -/
theorem resetStateIsPowerOn : Obligations.ResetStateIsPowerOn :=
  ⟨State.reset, rfl, exec_eq_next.2 ⟨default_valid, rfl, (powerOnReset_eq State.reset).symm⟩⟩

/-! The shadow and the control register -/

/-- Settles O57: a register write passes the shadow by; RESET_COUNTERS changes bit 0 of the shadow and flushes it. -/
theorem directControlWriteLastsUntilTheNextFlush : Obligations.DirectControlWriteLastsUntilTheNextFlush := by
  intro s t u idx data b hidx ht hu
  obtain ⟨-, -, rfl⟩ := exec_eq_next.1 ht
  obtain ⟨-, -, rfl⟩ := exec_eq_next.1 hu
  have hdirect : lastWrite s.cfg.idxCtrl (regWrite idx.toNat data s).trace = some data := by
    rw [← hidx]
    exact lastWrite_append_same _ _ _
  refine ⟨rfl, hdirect, resetCounters_shadowWritten b (regWrite idx.toNat data s), ?_, fun k hk => ?_⟩
  · exact (getLsbD_withReset s.ctrl b 0).trans (if_pos rfl)
  · exact (getLsbD_withReset s.ctrl b k).trans (if_neg hk)

/-! The torn DAC word -/

theorem dacLow_toNat (v : U16) : (dacLow v).toNat = v.toNat % 256 := by simp [dacLow]

theorem dacHigh_toNat (v : U16) : (dacHigh v).toNat = v.toNat / 256 := by
  rw [dacHigh_eq, BitVec.toNat_ofNat]
  omega

theorem dacHigh_append (hi lo : Byte) : dacHigh (hi ++ lo) = hi := by
  apply BitVec.eq_of_toNat_eq
  rw [dacHigh_toNat, toNat_append_eq]
  omega

theorem dacLow_append (hi lo : Byte) : dacLow (hi ++ lo) = lo := by
  apply BitVec.eq_of_toNat_eq
  rw [dacLow_toNat, toNat_append_eq]
  omega

theorem dacHigh_append_dacLow (v : U16) : dacHigh v ++ dacLow v = v := by
  apply BitVec.eq_of_toNat_eq
  rw [toNat_append_eq, dacHigh_toNat, dacLow_toNat]
  omega

/-- R84: the DAC registers hold `v` exactly when each holds its byte of `v`. -/
theorem dacWord_eq_some {c : Config} {tr : List Txn} {v : U16} :
    dacWord c tr = some v ↔
      lastWrite c.idxDacHi tr = some (dacHigh v) ∧ lastWrite c.idxDacLo tr = some (dacLow v) := by
  constructor
  · unfold dacWord
    split
    · rename_i hi lo hhi hlo
      rintro ⟨⟩
      exact ⟨by rw [hhi, dacHigh_append], by rw [hlo, dacLow_append]⟩
    · exact fun h => nomatch h
  · rintro ⟨hhi, hlo⟩
    simp only [dacWord, hhi, hlo, dacHigh_append_dacLow]

/-- R259: a write of the low byte alone leaves the new low byte with the old high byte. -/
theorem dacWord_append_lowWrite {c : Config} (hv : c.valid = true) {tr : List Txn} {old : U16}
    (h : dacWord c tr = some old) (v : U16) :
    dacWord c (tr ++ [.write c.idxDacLo (dacLow v)]) = some (tornWord old v) := by
  obtain ⟨-, -, -, -, -, hne⟩ := Config.written_indices_distinct hv
  obtain ⟨hhi, -⟩ := dacWord_eq_some.1 h
  refine dacWord_eq_some.2 ⟨?_, ?_⟩
  · rw [lastWrite_append_other hne, hhi, tornWord, dacHigh_append]
  · rw [lastWrite_append_same, tornWord, dacLow_append]

theorem tornWord_toNat (old v : U16) : (tornWord old v).toNat = 256 * (old.toNat / 256) + v.toNat % 256 := by
  rw [tornWord, toNat_append_eq, dacHigh_toNat, dacLow_toNat]
  omega

/-- Settles O24: the two writes are those of R130, low byte first. -/
theorem dacWordIsTornBetweenTheWrites : Obligations.DacWordIsTornBetweenTheWrites := by
  intro s old v hv hmax hold
  have hpermitted : (Instr.dacWrite v).wellFormed s.cfg = true := decide_eq_true hmax
  refine ⟨dacWrite v s, .write s.cfg.idxDacLo (dacLow v), .write s.cfg.idxDacHi (dacHigh v), tornWord old v,
    exec_of_valid hv hpermitted, by rw [dacWrite_eq], dacWord_append_lowWrite hv hold v, tornWord_toNat old v, ?_,
    dacWrite_dacHoldsTrim hv v⟩
  simp [possibleDacOutputs]

/-! The forced record -/

/-- Settles O53: the COARSE_MIN arm and REARM carry the counts and flags along and read none of them. -/
theorem coarseMinReadsNoRecordData : Obligations.CoarseMinReadsNoRecordData := by
  intro s t ts e1 e10 e100 f1 f10 f100 hstate h
  obtain ⟨hv, rfl⟩ := exec_fsmRow_eq_next.1 h
  refine exec_fsmRow_eq_next.2 ⟨hv, Eq.symm ?_⟩
  by_cases hact : s.ready = true ∧ Ungated s
  · obtain ⟨hready, hungated⟩ := hact
    rw [fsmStep_coarseTuneMin hungated hready hstate]
    exact fsmStep_coarseTuneMin (s := { s with e1, e10, e100, f1, f10, f100 }) hungated hready hstate
  · rw [fsmStep_idle hact]
    exact fsmStep_idle (s := { s with e1, e10, e100, f1, f10, f100 }) hact

/-! Running while disabled -/

/-- R161 to R163, R166: an arm leaves the shadow as it is, or with the counters held. -/
theorem fsmArm_ctrl (s : State) : (fsmArm s).ctrl = s.ctrl ∨ (fsmArm s).ctrl = withReset s.ctrl true := by
  unfold fsmArm
  cases s.tstate with
  | coarseTuneMin | coarseTuneMax => exact .inr rfl
  | coarseTuneDone =>
    obtain ⟨m, y, he, -⟩ := calCompute_eq { s with x1 := s.e1, y1 := u16OfNat s.cfg.trimdacMax }
    simp only [coarseDoneArm, he]
    exact .inl rfl
  | fineTune =>
    obtain ⟨v, tr, he⟩ := fineCorrect_frame s
    have hkept : (fineCorrect s).ctrl = s.ctrl := by rw [he]
    exact .inl hkept

/-- R169: whatever the arm, REARM leaves the mode with the counters running and interrupts enabled. -/
theorem fsmStep_ctrl_of_ready {s : State} (hu : Ungated s) (hr : s.ready = true) (h : ShadowOk s.ctrl) :
    (fsmStep s).ctrl = ctrlByte (ctrlTuneMode s.ctrl) true false := by
  have harm := fsmArm_ctrl { s with ready := false }
  rw [fsmStep_of_ready hu hr, rearm_eq]
  obtain ⟨hclear, hreserved, -⟩ := h
  rcases harm with he | he <;>
    simp only [he, withReset_of_shadow hclear hreserved, withReset_ctrlByte, withIrqEnable_ctrlByte]

/-- R141: CAPTURE leaves the mode with the counters held and interrupts disabled. -/
theorem capture_ctrl_of_shadow {s : State} (h : ShadowOk s.ctrl) :
    (capture s).ctrl = ctrlByte (ctrlTuneMode s.ctrl) false true := by
  obtain ⟨a0, a1, a2, a3, b0, b1, b2, b3, c0, c1, c2, c3, st, l, -, he, -⟩ := capture_spec s
  obtain ⟨hclear, hreserved, -⟩ := h
  rw [he]
  simp only [withIrqEnable_of_shadow hclear hreserved, withReset_ctrlByte]

/-- Settles O54: SUPERVISE sees no edge, POLL captures, and the step consumes the record, whatever its TuneState. -/
theorem runningWhileDisabled : Obligations.RunningWhileDisabled := by
  intro s st rest hv hparam hoff hshadow hmode hanswers hst
  have hungated : Ungated s := .inr hparam
  have hstat : (regRead s.cfg.idxStat s).1 ≠ 0 := by rwa [regRead_fst_of_answers hanswers]
  have hpoll := poll_of_stat_ne_zero hungated hstat
  have hctrl : (poll s).ctrl = ctrlByte 0b00 false true := by
    rw [hpoll, capture_ctrl_of_shadow (s := (regRead s.cfg.idxStat s).2) hshadow, regRead_ctrl, hmode]
  have hshadow' : ShadowOk (poll s).ctrl := by
    rw [hctrl]
    exact ctrlByte_shadowOk false true (by decide)
  have hready : (poll s).ready = true := by rw [hpoll]; rfl
  have hpolled : Ungated (poll s) := by simpa [Ungated] using hungated
  have hfinal : ctrlByte 0b00 true false = 0x02 := by decide
  have htick : tick false s = fsmStep (poll s) := by rw [tick, ← hoff, supervise_self]
  refine ⟨fsmStep (poll s), exec_eq_next.2 ⟨hv, rfl, htick.symm⟩, ?_, fsmStep_ready_of_ungated hpolled, by simp [hoff]⟩
  rw [fsmStep_ctrl_of_ready hpolled hready hshadow', hctrl, ctrlTuneMode_ctrlByte, hfinal]

/-! Transaction counts -/

/-- R263: the reads and the writes in a list of transactions. -/
def readsAndWrites (l : List Txn) : Nat × Nat := (readCountOf l, writeCountOf l)

theorem readsAndWrites_append (l m : List Txn) :
    readsAndWrites (l ++ m) = readsAndWrites l + readsAndWrites m := by
  simp only [readsAndWrites, readCountOf, writeCountOf, List.countP_append, Prod.mk_add_mk]

theorem readsAndWrites_map_ctrlWrite (c : Config) (bs : List Byte) :
    readsAndWrites (bs.map (ctrlWrite c)) = (0, bs.length) := by
  induction bs with
  | nil => rfl
  | cons b bs ih =>
    rw [List.map_cons, ← List.singleton_append, readsAndWrites_append, ih, List.length_cons, Nat.add_comm]
    rfl

/-- From `s` to `t` the trace grows by `n.1` reads and `n.2` writes. -/
def Transacts (s t : State) (n : Nat × Nat) : Prop := ∃ l, t.trace = s.trace ++ l ∧ readsAndWrites l = n

theorem Transacts.refl (s : State) : Transacts s s (0, 0) := ⟨[], (List.append_nil _).symm, rfl⟩

theorem Transacts.trans {s t u : State} {n m : Nat × Nat} (h : Transacts s t n) (k : Transacts t u m) :
    Transacts s u (n + m) := by
  obtain ⟨l, hl, rfl⟩ := h
  obtain ⟨l', hl', rfl⟩ := k
  exact ⟨l ++ l', by rw [hl', hl, List.append_assoc], readsAndWrites_append l l'⟩

theorem Performs.transacts {s t : State} {l : List Txn} (h : Performs s t l) : Transacts s t (readsAndWrites l) :=
  ⟨l, h.1, rfl⟩

theorem regWrite_transacts (idx : Nat) (b : Byte) (s : State) : Transacts s (regWrite idx b s) (0, 1) :=
  (regWrite_performs idx b s).transacts

theorem regRead_transacts (idx : Nat) (s : State) : Transacts s (regRead idx s).2 (1, 0) :=
  (regRead_performs idx s).transacts

theorem resetCounters_transacts (b : Bool) (s : State) : Transacts s (resetCounters b s) (0, 1) :=
  (resetCounters_performs b s).transacts

theorem dacWrite_transacts (v : U16) (s : State) : Transacts s (dacWrite v s) (0, 2) :=
  (dacWrite_performs v s).transacts

theorem rearm_transacts (s : State) : Transacts s (rearm s) (0, 2) := (rearm_performs s).transacts

theorem calCompute_transacts (s : State) : Transacts s (calCompute s) (0, 0) := (calCompute_performs s).transacts

theorem readCount_transacts (idx : Nat) (s : State) : Transacts s (readCount idx s).2 (4, 0) := by
  obtain ⟨b0, b1, b2, b3, -, h⟩ := readCount_spec idx s
  exact h.transacts

theorem capture_transacts (s : State) : Transacts s (capture s) (13, 3) := by
  obtain ⟨a0, a1, a2, a3, b0, b1, b2, b3, c0, c1, c2, c3, st, l, rfl, -, h⟩ := capture_spec s
  exact h.transacts

theorem setTuneMode_transacts (m : BitVec 2) (s : State) :
    Transacts s (setTuneMode m s) (if m = 0b11 then (0, 0) else if m = 0b00 then (0, 3) else (0, 5)) := by
  obtain ⟨bs, h, hlen⟩ := setTuneMode_performs m s
  have hn := h.transacts
  rw [readsAndWrites_map_ctrlWrite, hlen] at hn
  split_ifs at hn ⊢ <;> exact hn

theorem tamerInit_transacts (s : State) : Transacts s (tamerInit s) (0, 6) :=
  (setTuneMode_transacts (modeCode .onePPS) s).trans (regWrite_transacts _ _ _)

theorem tamerDisable_transacts (s : State) : Transacts s (tamerDisable s) (0, 3) :=
  setTuneMode_transacts (modeCode .disabled) s

theorem fineCorrect_transacts (s : State) : Transacts s (fineCorrect s)
    (if s.f1 = true ∨ s.f10 = true ∨ s.f100 = true then (0, 2) else (0, 0)) := by
  rcases fineCorrect_cases s with ⟨h1, h10, h100, he⟩ | ⟨hflag, v, he, -⟩
  · rw [he, if_neg (by simp [h1, h10, h100])]
    exact .refl s
  · rw [he, if_pos hflag]
    exact dacWrite_transacts v s

/-- R263's row of SUPERVISE: no edge, a rising edge, a falling edge. -/
theorem supervise_transacts (en : Bool) (s : State) : Transacts s (supervise en s)
    (if en = s.enQ then (0, 0) else if en = true then (0, 6) else (0, 3)) := by
  split
  · subst en
    rw [supervise_self]
    exact .refl s
  · rename_i hedge
    cases en with
    | true =>
      rw [supervise_rising (by simpa using hedge)]
      exact tamerInit_transacts s
    | false =>
      rw [supervise_falling (by simpa using hedge)]
      exact tamerDisable_transacts s

/-- R263's row of POLL: gated, a zero STAT byte, and any other one, after which CAPTURE runs. -/
theorem poll_transactions (s : State) : ∃ l, (poll s).trace = s.trace ++ l ∧
    (¬Ungated s ∧ l = [] ∨ Ungated s ∧ l = [.read s.cfg.idxStat 0] ∨
      Ungated s ∧ ∃ b m, b ≠ 0 ∧ l = .read s.cfg.idxStat b :: m ∧ readsAndWrites m = (13, 3)) := by
  by_cases hu : Ungated s
  · by_cases hstat : (regRead s.cfg.idxStat s).1 = 0
    · refine ⟨_, ?_, .inr (.inl ⟨hu, rfl⟩)⟩
      rw [poll_of_stat_zero hu hstat, regRead_trace, hstat]
    · obtain ⟨m, hm, hn⟩ := capture_transacts (regRead s.cfg.idxStat s).2
      refine ⟨_, ?_, .inr (.inr ⟨hu, _, m, hstat, rfl, hn⟩)⟩
      rw [poll_of_stat_ne_zero hu hstat, hm, regRead_trace, List.append_assoc, List.singleton_append]
  · have hgated : gated s = true := by rwa [← gated_eq_false, Bool.not_eq_false] at hu
    exact ⟨[], by rw [poll_of_gated hgated, List.append_nil], .inl ⟨hu, rfl⟩⟩

theorem readsAndWrites_cons_read (idx : Nat) (b : Byte) {l : List Txn} {r w : Nat}
    (h : readsAndWrites l = (r, w)) : readsAndWrites (.read idx b :: l) = (r + 1, w) := by
  rw [← List.singleton_append, readsAndWrites_append, h, Nat.add_comm r]
  exact Prod.ext rfl (Nat.zero_add w)

theorem poll_transacts_le (s : State) : ∃ n ≤ ((14, 3) : Nat × Nat), Transacts s (poll s) n := by
  obtain ⟨l, hl, hcase⟩ := poll_transactions s
  refine ⟨_, ?_, l, hl, rfl⟩
  rcases hcase with ⟨-, rfl⟩ | ⟨-, rfl⟩ | ⟨-, b, m, -, rfl, hm⟩
  · exact Prod.mk_le_mk.2 ⟨Nat.zero_le _, Nat.zero_le _⟩
  · exact Prod.mk_le_mk.2 ⟨Nat.le_add_left 1 13, Nat.zero_le _⟩
  · exact (readsAndWrites_cons_read _ b hm).le

/-- R263's row of FSM_STEP: the arm's transactions and REARM's two writes, or none. -/
def fsmStepCounts (s : State) : Nat × Nat :=
  if s.ready = true ∧ (s.enQ = true ∨ s.cfg.runWhileDisabled = true) then
    match s.tstate with
    | .coarseTuneMin | .coarseTuneMax | .coarseTuneDone => (0, 5)
    | .fineTune => if s.f1 = true ∨ s.f10 = true ∨ s.f100 = true then (0, 4) else (0, 2)
  else (0, 0)

theorem coarseMinArm_transacts (s : State) : Transacts s (coarseMinArm s) (0, 3) :=
  (dacWrite_transacts (u16OfNat s.cfg.trimdacMin) s).trans (resetCounters_transacts true _)

theorem coarseMaxArm_transacts (s : State) : Transacts s (coarseMaxArm s) (0, 3) :=
  (dacWrite_transacts (u16OfNat s.cfg.trimdacMax) { s with x0 := s.e1, y0 := u16OfNat s.cfg.trimdacMin }).trans
    (resetCounters_transacts true _)

theorem coarseDoneArm_transacts (s : State) : Transacts s (coarseDoneArm s) (0, 3) :=
  ((calCompute_transacts { s with x1 := s.e1, y1 := u16OfNat s.cfg.trimdacMax }).trans (dacWrite_transacts _ _)).trans
    (regWrite_transacts _ _ _)

theorem fsmStep_transacts (s : State) : Transacts s (fsmStep s) (fsmStepCounts s) := by
  by_cases hact : s.ready = true ∧ Ungated s
  · obtain ⟨hr, hu⟩ := hact
    rw [fsmStepCounts, if_pos ⟨hr, hu⟩]
    cases hstate : s.tstate with
    | coarseTuneMin =>
      rw [fsmStep_coarseTuneMin hu hr hstate]
      exact (coarseMinArm_transacts { s with ready := false }).trans (rearm_transacts _)
    | coarseTuneMax =>
      rw [fsmStep_coarseTuneMax hu hr hstate]
      exact (coarseMaxArm_transacts { s with ready := false }).trans (rearm_transacts _)
    | coarseTuneDone =>
      rw [fsmStep_coarseTuneDone hu hr hstate]
      exact (coarseDoneArm_transacts { s with ready := false }).trans (rearm_transacts _)
    | fineTune =>
      have hfine := (fineCorrect_transacts { s with ready := false }).trans (rearm_transacts _)
      rw [fsmStep_fineTune hu hr hstate]
      dsimp only at hfine ⊢
      split_ifs at hfine ⊢ <;> exact hfine
  · have hnone : fsmStepCounts s = (0, 0) := if_neg hact
    rw [fsmStep_idle hact, hnone]
    exact .refl s

theorem fsmStepCounts_le (s : State) : fsmStepCounts s ≤ (0, 5) := by
  unfold fsmStepCounts
  split
  · cases s.tstate with
    | coarseTuneMin | coarseTuneMax | coarseTuneDone => exact le_rfl
    | fineTune =>
      dsimp only
      split <;> decide
  · decide

/-- R264: the bounds of the three phases add up. -/
theorem tick_transacts_le (en : Bool) (s : State) : ∃ n ≤ ((14, 14) : Nat × Nat), Transacts s (tick en s) n := by
  have hsupervise : (if en = s.enQ then (0, 0) else if en = true then (0, 6) else (0, 3)) ≤ ((0, 6) : Nat × Nat) := by
    split_ifs <;> decide
  obtain ⟨n, hpoll, hn⟩ := poll_transacts_le (supervise en s)
  exact ⟨_, add_le_add (add_le_add hsupervise hpoll) (fsmStepCounts_le _),
    ((supervise_transacts en s).trans hn).trans (fsmStep_transacts _)⟩

/-- Settles O59: each row says what the operation `Transacts`, but for POLL's, which also shows the STAT byte, and TICK's
bound. -/
theorem transactionCounts : Obligations.TransactionCounts := by
  intro i s t h hi
  obtain ⟨-, -, rfl⟩ := exec_eq_next.1 h
  cases i with
  | regRead idx => exact regRead_transacts idx.toNat s
  | regWrite | resetCounters | enableIsr | clearIsr => exact regWrite_transacts _ _ s
  | setTuneMode m => exact setTuneMode_transacts m s
  | readCount idx => exact readCount_transacts idx.toNat s
  | dacWrite v => exact dacWrite_transacts v s
  | rearm => exact rearm_transacts s
  | capture => exact capture_transacts s
  | poll =>
    obtain ⟨l, hl, hcase⟩ := poll_transactions s
    refine ⟨l, hl, ?_⟩
    rcases hcase with ⟨hgated, rfl⟩ | ⟨hu, rfl⟩ | ⟨hu, b, m, hb, rfl, hm⟩
    · exact (if_neg hgated).mpr rfl
    · exact (if_pos hu).mpr (.inl ⟨rfl, rfl⟩)
    · exact (if_pos hu).mpr (.inr ⟨readsAndWrites_cons_read _ b hm, b, hb, rfl⟩)
  | fsmCoarseMin | fsmCoarseMax | fsmCoarseDone | fsmFineTune => exact fsmStep_transacts s
  | calCompute => exact calCompute_transacts s
  | fineCorrect => exact fineCorrect_transacts s
  | tamerInit => exact tamerInit_transacts s
  | tamerDisable => exact tamerDisable_transacts s
  | supervise en => exact supervise_transacts en s
  | tick en =>
    obtain ⟨n, hle, l, hl, rfl⟩ := tick_transacts_le en s
    exact ⟨l, hl, hle⟩
  | powerOnReset => exact absurd rfl hi

end Sys2Proof.Machine
